-- ==== Sys2Proof/Word.lean ====
section
/-! DEFINITION. The word types of the machine (spec 00_scope R6, R9): bytes and 16-bit register values. -/

namespace Sys2Proof

/-- A memory byte, an opcode or the accumulator: `u8` of R9. -/
abbrev Byte := BitVec 8

/-- A value of `pc` or `sp`: `u16` of R9. -/
abbrev Word := BitVec 16

end Sys2Proof
end

