-- ==== Sys2Proof/Syntax.lean ====
section
/-! DEFINITION. The instructions: one constructor for each row of spec/opcode_table.json. No instruction has
an operand (30_encoding R47). The six UNKNOWN rows (30_encoding R50) carry the byte itself, as the class
`UNKNOWN(op)` of R54 does, because the diagnostic event of R89 reports it. -/

namespace Sys2Proof

/-- The rows of the opcode table (R48, R50). -/
inductive Instr where
  /-- `HALT`, 0x00 (R57). -/
  | halt
  /-- `INC_PUSH`, 0x01 (R66). -/
  | incPush
  /-- `POP_ACC`, 0x02 (R67). -/
  | popAcc
  /-- `DEC`, 0x03 (R68). -/
  | dec
  /-- `UNKNOWN`, 000001xx: 0x04 to 0x07 (R69). -/
  | unknown04 (op : Byte)
  /-- `UNKNOWN`, 00001xxx: 0x08 to 0x0F (R69). -/
  | unknown08 (op : Byte)
  /-- `UNKNOWN`, 0001xxxx: 0x10 to 0x1F (R69). -/
  | unknown10 (op : Byte)
  /-- `UNKNOWN`, 001xxxxx: 0x20 to 0x3F (R69). -/
  | unknown20 (op : Byte)
  /-- `UNKNOWN`, 01xxxxxx: 0x40 to 0x7F (R69). -/
  | unknown40 (op : Byte)
  /-- `UNKNOWN`, 1xxxxxxx: 0x80 to 0xFF (R69). -/
  | unknown80 (op : Byte)
  deriving DecidableEq, Repr

end Sys2Proof
end

