-- ==== Sys2Proof/WellFormed.lean ====
section
/-! DEFINITION. Which instruction terms stand for bytes of the opcode map: the byte an UNKNOWN row carries
lies in that row's range (30_encoding R50). -/

namespace Sys2Proof

/-- The byte of an UNKNOWN term matches its row, `(byte & mask) == match` (R50). The other rows carry nothing. -/
def Instr.wf : Instr → Bool
  | .halt => true
  | .incPush => true
  | .popAcc => true
  | .dec => true
  | .unknown04 op => op &&& 0xFC#8 == 0x04#8
  | .unknown08 op => op &&& 0xF8#8 == 0x08#8
  | .unknown10 op => op &&& 0xF0#8 == 0x10#8
  | .unknown20 op => op &&& 0xE0#8 == 0x20#8
  | .unknown40 op => op &&& 0xC0#8 == 0x40#8
  | .unknown80 op => op &&& 0x80#8 == 0x80#8

end Sys2Proof
end

