-- ==== Sys2Proof/Decode.lean ====
section
/-! DEFINITION. The opcode map, the instruction decoder and the encoder (30_encoding R46 to R54), and the
host's entry `decodeTableWord`. -/

namespace Sys2Proof

/-- One row of the opcode map: the bytes `b` with `(b & mask) == value` (R50, whose word for `value` is "match"). -/
structure OpcodeRow where
  /-- The row's mnemonic in spec/opcode_table.json. -/
  mnemonic : String
  /-- The row's "match". -/
  value : Byte
  /-- The row's "mask". -/
  mask : Byte
  deriving DecidableEq, Repr

/-- Does the row take in the byte (R50)? -/
def OpcodeRow.covers (r : OpcodeRow) (b : Byte) : Bool := b &&& r.mask == r.value

/-- The row each constructor stands for (R50, opcode_table.json). -/
def Instr.row : Instr → OpcodeRow
  | .halt => ⟨"HALT", 0x00#8, 0xFF#8⟩
  | .incPush => ⟨"INC_PUSH", 0x01#8, 0xFF#8⟩
  | .popAcc => ⟨"POP_ACC", 0x02#8, 0xFF#8⟩
  | .dec => ⟨"DEC", 0x03#8, 0xFF#8⟩
  | .unknown04 _ => ⟨"UNKNOWN", 0x04#8, 0xFC#8⟩
  | .unknown08 _ => ⟨"UNKNOWN", 0x08#8, 0xF8#8⟩
  | .unknown10 _ => ⟨"UNKNOWN", 0x10#8, 0xF0#8⟩
  | .unknown20 _ => ⟨"UNKNOWN", 0x20#8, 0xE0#8⟩
  | .unknown40 _ => ⟨"UNKNOWN", 0x40#8, 0xC0#8⟩
  | .unknown80 _ => ⟨"UNKNOWN", 0x80#8, 0x80#8⟩

/-- The whole opcode map in the order of R50. -/
def opcodeMap : List OpcodeRow :=
  [⟨"HALT", 0x00#8, 0xFF#8⟩, ⟨"INC_PUSH", 0x01#8, 0xFF#8⟩, ⟨"POP_ACC", 0x02#8, 0xFF#8⟩, ⟨"DEC", 0x03#8, 0xFF#8⟩,
   ⟨"UNKNOWN", 0x04#8, 0xFC#8⟩, ⟨"UNKNOWN", 0x08#8, 0xF8#8⟩, ⟨"UNKNOWN", 0x10#8, 0xF0#8⟩,
   ⟨"UNKNOWN", 0x20#8, 0xE0#8⟩, ⟨"UNKNOWN", 0x40#8, 0xC0#8⟩, ⟨"UNKNOWN", 0x80#8, 0x80#8⟩]

/-- The instruction decoder (R54): total on the 256 bytes, it reads no state and never raises (R49). Bytes
above 0x03 go to the UNKNOWN row that covers them (R50). -/
def decode (b : Byte) : Instr :=
  if b = 0x00#8 then .halt
  else if b = 0x01#8 then .incPush
  else if b = 0x02#8 then .popAcc
  else if b = 0x03#8 then .dec
  else if b &&& 0xFC#8 = 0x04#8 then .unknown04 b
  else if b &&& 0xF8#8 = 0x08#8 then .unknown08 b
  else if b &&& 0xF0#8 = 0x10#8 then .unknown10 b
  else if b &&& 0xE0#8 = 0x20#8 then .unknown20 b
  else if b &&& 0xC0#8 = 0x40#8 then .unknown40 b
  else .unknown80 b

/-- The byte of an instruction, from the opcode map (R48). -/
def encode : Instr → Byte
  | .halt => 0x00#8
  | .incPush => 0x01#8
  | .popAcc => 0x02#8
  | .dec => 0x03#8
  | .unknown04 op => op
  | .unknown08 op => op
  | .unknown10 op => op
  | .unknown20 op => op
  | .unknown40 op => op
  | .unknown80 op => op

/-- Why a run of bytes gives no instruction. -/
inductive DecodeError where
  /-- There is no byte to read; every byte that is there decodes (R50). Safe. -/
  | noByte
  deriving DecidableEq, Repr

/-- Reads one instruction off the front of a run of bytes: its length is always 1 (R51). -/
def decodeBytes : List Byte → Except DecodeError (Instr × List Byte)
  | [] => .error .noByte
  | b :: rest => .ok (decode b, rest)

/-- The bytes of an instruction, in memory order (R46). -/
def encodeBytes (i : Instr) : List Byte := [encode i]

/-- The low `8 * n` bits of a number as bytes, bits 7..0 first. -/
def bytesOfNat : Nat → Nat → List Byte
  | 0, _ => []
  | n + 1, w => BitVec.ofNat 8 w :: bytesOfNat n (w / 256)

/-- The bytes of a table word of `nbits` bits: bits above `nbits` are 0, and at least the one byte of the
longest instruction is there (R46). -/
def bytesOfWord (nbits w : Nat) : List Byte :=
  bytesOfNat (max 1 ((nbits + 7) / 8)) (w % 2 ^ nbits)

/-- The instruction read from a word numbered as spec/opcode_table.json numbers it. -/
def decodeTableWord (nbits w : Nat) : Option Instr :=
  match decodeBytes (bytesOfWord nbits w) with
  | .ok (i, _) => some i
  | .error _ => none

end Sys2Proof
end

