-- ==== Sys2Proof/Config.lean ====
section
/-! DEFINITION. The parameters the spec fixes (00_scope R6) and the one value it leaves free (93 I5). -/

namespace Sys2Proof.Config

/-- `MEM_SIZE`: indices 0x00 to 0xFF (R6, D1). -/
def memSize : Nat := 256

/-- `PC_RESET` (R6, R109). -/
def pcReset : Word := 0x0000#16

/-- `SP_RESET` (R6, R109). -/
def spReset : Word := 0x00FF#16

/-- `ACC_RESET` (R6, R109). -/
def accReset : Byte := 0x00#8

/-- `SP_EMPTY`: at this value of `sp` or above, pop, peek and poke fail (R6, C1, D2). -/
def spEmpty : Word := 0x00FF#16

/-- FREE VALUE (log entry 2). What the byte at an index holds that neither the host nor the core has
written: "unspecified otherwise" and "must not assume zeros" (R110, D15, I5). It has no body, so nothing
can be proved of it; it depends on the index alone, since R36 makes two reads of one location agree. -/
opaque powerOnByte : Nat → Byte

end Sys2Proof.Config
end

