-- ==== Sys2Proof/Machine/State.lean ====
section
/-! DEFINITION. The machine's state (10_state: the tuple `(pc, sp, acc, STATUS, mem[0..255])`), the reasons a
transition can stop, and the state right after reset. -/

namespace Sys2Proof.Machine

open Sys2Proof

/-- `STATUS.STATE` (R22). -/
inductive RunState where
  | idle | running | halted | faulted
  deriving DecidableEq, Repr

/-- The four error kinds (R91). -/
inductive ErrorKind where
  /-- push with no space below index 0 (R92). -/
  | stackOverflow
  /-- pop with nothing pushed (R93). -/
  | stackUnderflow
  /-- peek or poke on the empty stack, host only (R94). -/
  | invalidStackAccess
  /-- fetch past the memory bound (R95). -/
  | outOfBoundsFetch
  deriving DecidableEq, Repr

/-- One event `DIAG(index, opcode)` of the diagnostic output (R89). -/
structure DiagEvent where
  /-- The index the unknown opcode was fetched from. -/
  index : Word
  /-- The unknown opcode. -/
  opcode : Byte
  deriving DecidableEq, Repr

/-- Memory as plain data: the bytes that have been written, by strictly rising index. -/
abbrev Memory := List Host.Cell

/-- All the state the spec gives the machine, and the model's own output trace `diag`. -/
structure State where
  /-- Index of the next instruction byte to fetch (R16). -/
  pc : Word
  /-- Index of the top of stack, 0x00FF when the stack is empty (R17). -/
  sp : Word
  /-- The accumulator (R19). -/
  acc : Byte
  /-- The STATUS register, whole (R22): STATE in bits [1:0], CAUSE in [4:2], [7:5] hardwired 0. -/
  status : Byte
  /-- The memory array (R26): what host and core have written (log entry 2). -/
  mem : Memory
  /-- The model's own field: the DIAG events emitted so far, oldest first (R89, log entry 6). -/
  diag : List DiagEvent
  deriving DecidableEq, Repr

/-- Reasons the machine stops with a fault. The four errors of R91 are not among them: taking one is a next
state (R96). -/
inductive Fault where
  /-- Raised by `memRead` and `memWrite` for an index outside the array: "a fault of the model" (R11, I12).
  Only a push from a state with `sp` above 0x0100 meets it, and no run reaches such a state (R18). Safe. -/
  | memoryIndex (index : Word)
  deriving DecidableEq, Repr

/-- Reasons a transition has no meaning. -/
inductive Refusal where
  /-- Raised by an arm of `exec` whose instruction has no meaning yet; no arm uses it. Safe. -/
  | notModelled (mnemonic : String)
  /-- Raised by `hostCommand` for a command other than NEW while STATE = RUNNING: the host has no such move
  (R78, R88, I13). Safe. -/
  | hostDuringRun
  deriving DecidableEq, Repr

/-- How an operation over the state ends: with a value, with `raise E` (the state keeps every write made
before the `raise`, R11), or with a fault of the model. -/
inductive Result (α : Type) where
  | ok (v : α) (s : State)
  | raised (e : ErrorKind) (s : State)
  | stopped (f : Fault)
  deriving DecidableEq, Repr

/-- The machine right after power-on or reset (R109, R110, R112), with no byte of memory supplied yet and an
empty output trace (log entries 2 and 6). -/
def State.reset : State where
  pc := Config.pcReset
  sp := Config.spReset
  acc := Config.accReset
  status := 0x00#8
  mem := []
  diag := []

end Sys2Proof.Machine
end

