-- ==== Sys2Proof/Machine/Flags.lean ====
section
/-! DEFINITION. The STATUS register and its fields (10_state R21 to R25). The ISA has no flags or condition
codes (R20): no instruction writes a carry, zero or overflow indication, so nothing else stands here. -/

namespace Sys2Proof.Machine

open Sys2Proof

/-- The code of STATE in STATUS[1:0] (R22). -/
def RunState.code : RunState → BitVec 2
  | .idle => 0#2
  | .running => 1#2
  | .halted => 2#2
  | .faulted => 3#2

/-- The STATE that a code of STATUS[1:0] stands for (R22). -/
def RunState.ofCode (c : BitVec 2) : RunState :=
  if c = 0#2 then .idle
  else if c = 1#2 then .running
  else if c = 2#2 then .halted
  else .faulted

/-- The code of CAUSE, and of a host response (R22, R78, R91). -/
def ErrorKind.code : ErrorKind → BitVec 3
  | .stackOverflow => 1#3
  | .stackUnderflow => 2#3
  | .invalidStackAccess => 3#3
  | .outOfBoundsFetch => 4#3

/-- CAUSE = NONE (R22). -/
def causeNone : BitVec 3 := 0#3

/-- The STATUS register with these fields; bits [7:5] are hardwired 0 (R22). -/
def statusWord (st : RunState) (cause : BitVec 3) : Byte := 0#3 ++ cause ++ st.code

/-- `STATUS.STATE` (R22). -/
def State.runState (s : State) : RunState := RunState.ofCode (s.status.extractLsb' 0 2)

/-- `STATUS.CAUSE` (R22). -/
def State.cause (s : State) : BitVec 3 := s.status.extractLsb' 2 3

/-- STATUS as it is read out: bits [7:5] read 0 (R22, I10). -/
def State.statusOut (s : State) : Byte := 0#3 ++ s.status.extractLsb' 0 5

/-- Writes both fields of STATUS. -/
def setStatus (st : RunState) (cause : BitVec 3) (s : State) : State := { s with status := statusWord st cause }

/-- Writes `STATUS.STATE` and leaves `STATUS.CAUSE` (R57). -/
def setRunState (st : RunState) (s : State) : State := setStatus st s.cause s

end Sys2Proof.Machine
end

