-- ==== Sys2Proof/Machine/Ops.lean ====
section
/-! DEFINITION. The named operations over memory and registers: the memory port (20_memory), the fetch unit
(40_fetch_decode R55), the diagnostic output (43_host_interface R89), taking an error (60_exceptions R96) and
reset (70_reset_and_hazards R109). There is no return from an error (R100): only RESET and RUN leave FAULTED. -/

namespace Sys2Proof.Machine

open Sys2Proof

/-- The canonical form of memory: indices strictly rising, each inside the array (R30). An unlisted index holds no
written byte, so no entry can repeat what an unlisted one holds. -/
abbrev Memory.wf (m : Memory) : Prop :=
  (m.map Prod.fst).Pairwise (· < ·) ∧ ∀ c ∈ m, c.1 < Config.memSize

/-- The byte written at an index, if any has been. -/
def Memory.find : Memory → Nat → Option Byte
  | [], _ => none
  | (k, v) :: m, a => if a = k then some v else Memory.find m a

/-- Stores a byte and keeps the canonical form. -/
def Memory.store : Memory → Nat → Byte → Memory
  | [], a, v => [(a, v)]
  | (k, w) :: m, a, v =>
    if a < k then (a, v) :: (k, w) :: m
    else if a = k then (a, v) :: m
    else (k, w) :: Memory.store m a v

/-- The byte the machine holds at an index: the latest byte written there (R39), and a free value where none
has been (R110, I5). -/
def State.byteAt (s : State) (a : Nat) : Byte := (Memory.find s.mem a).getD (Config.powerOnByte a)

/-- The state with a byte stored at an index of the array. -/
def State.storeByte (s : State) (a : Nat) (v : Byte) : State := { s with mem := Memory.store s.mem a v }

/-- `MemRead(addr, 1)` (R11, R33). -/
def memRead (index : Word) (s : State) : Result Byte :=
  if index.toNat < Config.memSize then .ok (s.byteAt index.toNat) s else .stopped (.memoryIndex index)

/-- `MemWrite(addr, 1, v)` (R11, R33). -/
def memWrite (index : Word) (v : Byte) (s : State) : Result Unit :=
  if index.toNat < Config.memSize then .ok () (s.storeByte index.toNat v) else .stopped (.memoryIndex index)

/-- `pc <- v` (R10). -/
def writePc (v : Word) (s : State) : State := { s with pc := v }

/-- `sp <- v` (R10). -/
def writeSp (v : Word) (s : State) : State := { s with sp := v }

/-- `acc <- v` (R10). -/
def writeAcc (v : Byte) (s : State) : State := { s with acc := v }

/-- `emit DIAG(a, op)` (R89). -/
def emitDiag (a : Word) (op : Byte) (s : State) : State := { s with diag := s.diag ++ [⟨a, op⟩] }

/-- `fetch()` (R55, R56): the bound is tested before the read, and a failing fetch changes nothing (D3). -/
def fetch (s : State) : Result Byte :=
  if Config.memSize ≤ s.pc.toNat then .raised .outOfBoundsFetch s
  else
    match memRead s.pc s with
    | .ok op s1 => .ok op (writePc (s1.pc + 1#16) s1)
    | .raised e s1 => .raised e s1
    | .stopped f => .stopped f

/-- Taking an error in a step (R96): STATE <- FAULTED, CAUSE <- code(E), and nothing else. -/
def takeError (e : ErrorKind) (s : State) : State := setStatus .faulted e.code s

/-- How a step ends whose last operation was this one: normally, by taking the error raised (R96), or with a
fault of the model. -/
def complete {α : Type} (r : Result α) (k : α → State → State) : Host.Outcome State Fault Refusal :=
  match r with
  | .ok v s => .next (k v s)
  | .raised e s => .next (takeError e s)
  | .stopped f => .fault f

/-- `reset()` (R109): the registers and STATUS take their reset values and memory is not touched. -/
def resetRegs (s : State) : State :=
  setStatus .idle causeNone (writeAcc Config.accReset (writeSp Config.spReset (writePc Config.pcReset s)))

/-- The first two assignments of RUN (R81). -/
def startRun (s : State) : State := setStatus .running causeNone s

/-- What the host does to have the first byte of a table word run next (R113): it is stored where the next fetch
reads, and the run is started. Where pc is outside the array no fetch can read, so pc is set to 0 first. -/
def placeFetchWord (nbits w : Nat) (s : State) : State :=
  let s0 := if s.pc.toNat < Config.memSize then s else writePc Config.pcReset s
  match bytesOfWord nbits w with
  | [] => startRun s0
  | b :: _ => startRun (s0.storeByte s0.pc.toNat b)

end Sys2Proof.Machine
end

