-- ==== Sys2Proof/Machine/Operands.lean ====
section
/-! DEFINITION. The operand forms. No instruction has an explicit operand (30_encoding R47): the implicit ones
are acc, with its two ALU operations (41_execute R70), and the stack at sp, reached through the stack
sequencer's four micro-operations (42_stack_sequencer R71 to R74). -/

namespace Sys2Proof.Machine

open Sys2Proof

/-- `(v + 1) mod 2^8` (R70). -/
def incByte (v : Byte) : Byte := v + 1#8

/-- `(v - 1) mod 2^8`, that is `(v + 0xFF) mod 2^8` (R68, R70). -/
def decByte (v : Byte) : Byte := v - 1#8

/-- Is there no byte that pop, peek or poke may reach (R72 to R74, C1, D2)? -/
def stackEmpty (s : State) : Bool := Config.spEmpty.toNat ≤ s.sp.toNat

/-- `push(v)` (R71): the guard, then the decrement, then the write at the new `sp`. -/
def push (v : Byte) (s : State) : Result Unit :=
  if s.sp = 0#16 then .raised .stackOverflow s
  else
    let s1 := writeSp (s.sp - 1#16) s
    memWrite s1.sp v s1

/-- `pop()` (R72): the guard, then the read at `sp`, then the increment. -/
def pop (s : State) : Result Byte :=
  if stackEmpty s then .raised .stackUnderflow s
  else
    match memRead s.sp s with
    | .ok v s1 => .ok v (writeSp (s1.sp + 1#16) s1)
    | .raised e s1 => .raised e s1
    | .stopped f => .stopped f

/-- `peek()` (R73). -/
def peek (s : State) : Result Byte :=
  if stackEmpty s then .raised .invalidStackAccess s else memRead s.sp s

/-- `poke(v)` (R74). -/
def poke (v : Byte) (s : State) : Result Unit :=
  if stackEmpty s then .raised .invalidStackAccess s else memWrite s.sp v s

/-- Pushes in a row, the first of the list first, ended by the first error (R76). -/
def pushAll : List Byte → State → Result Unit
  | [], s => .ok () s
  | v :: vs, s =>
    match push v s with
    | .ok _ s1 => pushAll vs s1
    | .raised e s1 => .raised e s1
    | .stopped f => .stopped f

end Sys2Proof.Machine
end

