-- ==== Sys2Proof/Machine/Arith.lean ====
section
/-! DEFINITION. The arithmetic family: DEC (41_execute R68). -/

namespace Sys2Proof.Machine

open Sys2Proof

/-- DEC: acc is decremented modulo 2^8 and the stack is not touched (R68, C3). -/
def execDec (s : State) : Host.Outcome State Fault Refusal := .next (writeAcc (decByte s.acc) s)

end Sys2Proof.Machine
end

