-- ==== Sys2Proof/Machine/Stack.lean ====
section
/-! DEFINITION. The stack family: INC_PUSH and POP_ACC (41_execute R66, R67). -/

namespace Sys2Proof.Machine

open Sys2Proof

/-- INC_PUSH: acc is incremented, then the new acc is pushed; a push that raises StackOverflow leaves the
incremented acc (R66, R97, D4). -/
def execIncPush (s : State) : Host.Outcome State Fault Refusal :=
  let s1 := writeAcc (incByte s.acc) s
  complete (push s1.acc s1) (fun _ t => t)

/-- POP_ACC: the top of stack is popped into acc; StackUnderflow leaves everything (R67, R97). -/
def execPopAcc (s : State) : Host.Outcome State Fault Refusal := complete (pop s) writeAcc

end Sys2Proof.Machine
end

