-- ==== Sys2Proof/Machine/System.lean ====
section
/-! DEFINITION. The system family: HALT (40_fetch_decode R57, R58). -/

namespace Sys2Proof.Machine

open Sys2Proof

/-- HALT: the halt check, after the fetch and before any other effect, writes STATE <- HALTED; CAUSE stays (R57).
It is the halt check's arm of `exec` and no arm of the execution engine (R62, log entry 4). -/
def execHalt (s : State) : Host.Outcome State Fault Refusal := .next (setRunState .halted s)

end Sys2Proof.Machine
end

