-- ==== Sys2Proof/Machine/Unknown.lean ====
section
/-! DEFINITION. The UNKNOWN rows: a no-op with a diagnostic (41_execute R69), never an error (30_encoding R49). -/

namespace Sys2Proof.Machine

open Sys2Proof

/-- `emit DIAG(pc - 1, op)`: pc is already past the opcode (R69). -/
def unknownOpcode (op : Byte) (s : State) : State := emitDiag (s.pc - 1#16) op s

/-- An unknown opcode 0x04 to 0x07 (R69). -/
def execUnknown04 (op : Byte) (s : State) : Host.Outcome State Fault Refusal := .next (unknownOpcode op s)

/-- An unknown opcode 0x08 to 0x0F (R69). -/
def execUnknown08 (op : Byte) (s : State) : Host.Outcome State Fault Refusal := .next (unknownOpcode op s)

/-- An unknown opcode 0x10 to 0x1F (R69). -/
def execUnknown10 (op : Byte) (s : State) : Host.Outcome State Fault Refusal := .next (unknownOpcode op s)

/-- An unknown opcode 0x20 to 0x3F (R69). -/
def execUnknown20 (op : Byte) (s : State) : Host.Outcome State Fault Refusal := .next (unknownOpcode op s)

/-- An unknown opcode 0x40 to 0x7F (R69). -/
def execUnknown40 (op : Byte) (s : State) : Host.Outcome State Fault Refusal := .next (unknownOpcode op s)

/-- An unknown opcode 0x80 to 0xFF (R69). -/
def execUnknown80 (op : Byte) (s : State) : Host.Outcome State Fault Refusal := .next (unknownOpcode op s)

end Sys2Proof.Machine
end

