-- ==== Sys2Proof/Machine/Dispatch.lean ====
section
/-! DEFINITION. What a step does after the fetch (40_fetch_decode R59): the halt check on the decoder's HALT
output, and the execution engine's dispatch on the other classes (41_execute R65). -/

namespace Sys2Proof.Machine

open Sys2Proof

/-- One arm for each row of the opcode table. -/
def exec (i : Instr) (s : State) : Host.Outcome State Fault Refusal :=
  match i with
  -- the halt check (R57)
  | .halt => Sys2Proof.Machine.execHalt s
  -- the execution engine (R65)
  | .incPush => Sys2Proof.Machine.execIncPush s
  | .popAcc => Sys2Proof.Machine.execPopAcc s
  | .dec => Sys2Proof.Machine.execDec s
  | .unknown04 op => Sys2Proof.Machine.execUnknown04 op s
  | .unknown08 op => Sys2Proof.Machine.execUnknown08 op s
  | .unknown10 op => Sys2Proof.Machine.execUnknown10 op s
  | .unknown20 op => Sys2Proof.Machine.execUnknown20 op s
  | .unknown40 op => Sys2Proof.Machine.execUnknown40 op s
  | .unknown80 op => Sys2Proof.Machine.execUnknown80 op s

end Sys2Proof.Machine
end

