-- ==== Sys2Proof/Machine/Run.lean ====
section
/-! DEFINITION. The step of the core and the run loop (40_fetch_decode R59, R63). -/

namespace Sys2Proof.Machine

open Sys2Proof

/-- `step()` of R59, for a core that is RUNNING: fetch, then the halt check and execution of what was fetched; an
error of the fetch is taken (R96). -/
def coreStep (s : State) : Host.Outcome State Fault Refusal :=
  match fetch s with
  | .ok op s1 => exec (decode op) s1
  | .raised e s1 => .next (takeError e s1)
  | .stopped f => .fault f

/-- The core's move from any state: it steps only while RUNNING (R23); in IDLE, HALTED and FAULTED all registers
and memory keep their values (R107, log entry 1). -/
def runStep (s : State) : Host.Outcome State Fault Refusal :=
  match s.runState with
  | .running => coreStep s
  | .idle => .next s
  | .halted => .next s
  | .faulted => .next s

/-- `run_loop()` of R63, cut after a number of steps. -/
def runLoop : Nat → State → Host.Outcome State Fault Refusal
  | 0, s => .next s
  | n + 1, s =>
    match s.runState with
    | .running =>
      match coreStep s with
      | .next t => runLoop n t
      | .fault f => .fault f
      | .refused r => .refused r
    | .idle => .next s
    | .halted => .next s
    | .faulted => .next s

/-- As many steps as any run can take: MEM_SIZE - pc + 1 fetch attempts at pc = 0 (R61). -/
def runBound : Nat := Config.memSize + 1

end Sys2Proof.Machine
end

