-- ==== Sys2Proof/Machine/Step.lean ====
section
/-! DEFINITION. The host's entries: one step, and a state whose next step runs a given word. -/

namespace Sys2Proof.Machine

/-- One move of the core (R59, R23, R107). -/
def step (s : State) : Host.Outcome State Fault Refusal := runStep s

/-- The state whose next step fetches and runs the table word (log entry 3). -/
def State.withFetchWord (s : State) (nbits w : Nat) : State := placeFetchWord nbits w s

end Sys2Proof.Machine
end

