-- ==== Sys2Proof/Machine/HostPort.lean ====
section
/-! DEFINITION. The host port: the commands and responses of 43_host_interface R78 to R87, each one atomic
transition of the host agent. -/

namespace Sys2Proof.Machine

open Sys2Proof

/-- The commands the host port accepts (R78). A memory index is 0 to 255 (R8, R87). -/
inductive HostCommand where
  /-- NEW, power-on (R79). -/
  | new
  /-- RESET (R80). -/
  | reset
  /-- RUN (R81). -/
  | run
  /-- PUSH(v) (R82). -/
  | push (v : Byte)
  /-- POP (R83). -/
  | pop
  /-- PEEK (R84). -/
  | peek
  /-- POKE(v) (R85). -/
  | poke (v : Byte)
  /-- READ_REGS (R86). -/
  | readRegs
  /-- MEM_WRITE(a, v) (R87). -/
  | memWrite (a : Byte) (v : Byte)
  /-- MEM_READ(a) (R87). -/
  | memRead (a : Byte)
  deriving DecidableEq, Repr

/-- The responses of a command (R78). -/
inductive HostResponse where
  /-- `OK`. -/
  | ok
  /-- `OK(byte)`. -/
  | okByte (v : Byte)
  /-- `OK(regs)`. -/
  | okRegs (pc : Word) (sp : Word) (acc : Byte) (status : Byte)
  /-- `ERR(code)`, in the code space of CAUSE. -/
  | err (code : BitVec 3)
  deriving DecidableEq, Repr

/-- How a host command ends: with a response and the state after it, or stopped. -/
abbrev HostOutcome := Host.Outcome (HostResponse × State) Fault Refusal

/-- The response of a stack command: an error is returned as `ERR(code)` and STATUS is not written (R98). -/
def respondStack {α : Type} (answer : α → HostResponse) (r : Result α) : HostOutcome :=
  match r with
  | .ok v s => .next (answer v, s)
  | .raised e s => .next (.err e.code, s)
  | .stopped f => .fault f

/-- The response of a RUN whose loop has ended (R81). -/
def respondRun (s : State) : HostResponse :=
  match s.runState with
  | .halted => .ok
  | .idle => .err s.cause
  | .running => .err s.cause
  | .faulted => .err s.cause

/-- NEW (R79): the same register and STATUS values as RESET; memory is not written. -/
def hostNew (s : State) : HostOutcome := .next (.ok, resetRegs s)

/-- RESET (R80). -/
def hostReset (s : State) : HostOutcome := .next (.ok, resetRegs s)

/-- RUN (R81): starts at the current pc, and responds when the loop has ended. -/
def hostRun (s : State) : HostOutcome :=
  match runLoop runBound (startRun s) with
  | .next t => .next (respondRun t, t)
  | .fault f => .fault f
  | .refused r => .refused r

/-- PUSH(v) (R82). -/
def hostPush (v : Byte) (s : State) : HostOutcome := respondStack (fun _ => .ok) (push v s)

/-- POP (R83). -/
def hostPop (s : State) : HostOutcome := respondStack .okByte (pop s)

/-- PEEK (R84). -/
def hostPeek (s : State) : HostOutcome := respondStack .okByte (peek s)

/-- POKE(v) (R85). -/
def hostPoke (v : Byte) (s : State) : HostOutcome := respondStack (fun _ => .ok) (poke v s)

/-- READ_REGS (R86). -/
def hostReadRegs (s : State) : HostOutcome := .next (.okRegs s.pc s.sp s.acc s.statusOut, s)

/-- MEM_WRITE(a, v) (R87). -/
def hostMemWrite (a : Byte) (v : Byte) (s : State) : HostOutcome := .next (.ok, s.storeByte a.toNat v)

/-- MEM_READ(a) (R87). -/
def hostMemRead (a : Byte) (s : State) : HostOutcome := .next (.okByte (s.byteAt a.toNat), s)

/-- Is the command accepted in this state? Only NEW, which is power-on, is accepted while RUNNING (R78). -/
def hostAccepts (c : HostCommand) (s : State) : Bool := decide (s.runState ≠ .running) || decide (c = .new)

/-- What an accepted command does. -/
def hostEffect (c : HostCommand) (s : State) : HostOutcome :=
  match c with
  | .new => hostNew s
  | .reset => hostReset s
  | .run => hostRun s
  | .push v => hostPush v s
  | .pop => hostPop s
  | .peek => hostPeek s
  | .poke v => hostPoke v s
  | .readRegs => hostReadRegs s
  | .memWrite a v => hostMemWrite a v s
  | .memRead a => hostMemRead a s

/-- One move of the host agent (R78, R88). -/
def hostCommand (c : HostCommand) (s : State) : HostOutcome :=
  if hostAccepts c s then hostEffect c s else .refused .hostDuringRun

/-- A sequence of commands, with their responses in order. -/
def hostSession : List HostCommand → State → Host.Outcome (List HostResponse × State) Fault Refusal
  | [], s => .next ([], s)
  | c :: cs, s =>
    match hostCommand c s with
    | .next (r, t) =>
      match hostSession cs t with
      | .next (rs, u) => .next (r :: rs, u)
      | .fault f => .fault f
      | .refused x => .refused x
    | .fault f => .fault f
    | .refused x => .refused x

/-- Loading a program is MEM_WRITE of its bytes from an index upward (R87). DESIGN CHOICE (log entry 13): the spec gives
no meaning to an image that runs past index 0xFF (R118); here the 8-bit index of MEM_WRITE then goes on at 0x00. -/
def loadCommandsFrom : Byte → List Byte → List HostCommand
  | _, [] => []
  | a, v :: vs => .memWrite a v :: loadCommandsFrom (a + 1#8) vs

/-- Loading a program from index 0 (R87, R113). An image of more than 256 bytes is log entry 13. -/
def loadCommands (image : List Byte) : List HostCommand := loadCommandsFrom 0x00#8 image

end Sys2Proof.Machine
end

