-- ==== Sys2Proof/Machine/Assembler.lean ====
section
/-! DEFINITION. The assembler syntax the spec defines for its examples and tools (30_encoding R52, R53): one
mnemonic a line, `.byte 0xNN`, comments from `;` to the end of the line; no labels and no pseudo-instructions. -/

namespace Sys2Proof.Machine

open Sys2Proof

/-- What one line of source says (R52). -/
inductive SourceLine where
  | halt
  | incPush
  | popAcc
  | dec
  /-- `.byte 0xNN`. -/
  | byte (b : Byte)
  deriving DecidableEq, Repr

/-- Why a source text does not assemble. -/
inductive AsmError where
  /-- The line is none of the forms of R52. Safe. -/
  | badLine (text : List Char)
  /-- There are more lines than indices (log entry 10). Safe. -/
  | tooLong
  deriving DecidableEq, Repr

/-- Every line assembles to exactly one byte (R53). -/
def assembleLine : SourceLine → Byte
  | .halt => encode .halt
  | .incPush => encode .incPush
  | .popAcc => encode .popAcc
  | .dec => encode .dec
  | .byte b => b

/-- The image: the first line is index 0x00, each later line the next index (R52). -/
def assemble (lines : List SourceLine) : List Byte := lines.map assembleLine

/-- The line without its comment (R52). -/
def stripComment : List Char → List Char
  | [] => []
  | c :: cs => if c = ';' then [] else c :: stripComment cs

/-- White space inside a line (log entry 10). -/
def isBlankChar (c : Char) : Bool := c == ' ' || c == '\t' || c == '\r'

/-- A line without the white space at its two ends. -/
def trimLine (cs : List Char) : List Char :=
  ((cs.dropWhile isBlankChar).reverse.dropWhile isBlankChar).reverse

/-- The value of a hexadecimal digit, capital or small (log entry 10). -/
def hexDigit (c : Char) : Option Nat :=
  let n := c.toNat
  if 48 ≤ n ∧ n ≤ 57 then some (n - 48)
  else if 65 ≤ n ∧ n ≤ 70 then some (n - 55)
  else if 97 ≤ n ∧ n ≤ 102 then some (n - 87)
  else none

/-- `0xNN`: exactly two hexadecimal digits (R52). -/
def parseHexByte : List Char → Option Byte
  | ['0', 'x', h, l] =>
    match hexDigit h, hexDigit l with
    | some a, some b => some (BitVec.ofNat 8 (16 * a + b))
    | _, _ => none
  | _ => none

/-- What stands after `.byte`: white space, then the byte (R52). -/
def parseByteOperand : List Char → Option SourceLine
  | [] => none
  | c :: cs => if isBlankChar c then (parseHexByte (cs.dropWhile isBlankChar)).map .byte else none

/-- One line of text; a line with nothing but a comment or white space says nothing (R52, log entry 10). -/
def parseLine (text : List Char) : Except AsmError (Option SourceLine) :=
  match trimLine (stripComment text) with
  | [] => .ok none
  | ['H', 'A', 'L', 'T'] => .ok (some .halt)
  | ['I', 'N', 'C', '_', 'P', 'U', 'S', 'H'] => .ok (some .incPush)
  | ['P', 'O', 'P', '_', 'A', 'C', 'C'] => .ok (some .popAcc)
  | ['D', 'E', 'C'] => .ok (some .dec)
  | '.' :: 'b' :: 'y' :: 't' :: 'e' :: rest =>
    match parseByteOperand rest with
    | some l => .ok (some l)
    | none => .error (.badLine text)
  | _ => .error (.badLine text)

/-- The lines of a source text, in order. -/
def parseLines : List (List Char) → Except AsmError (List SourceLine)
  | [] => .ok []
  | t :: ts =>
    match parseLine t, parseLines ts with
    | .ok (some l), .ok ls => .ok (l :: ls)
    | .ok none, .ok ls => .ok ls
    | .error e, _ => .error e
    | _, .error e => .error e

/-- The assembled image of a source text, at most MEM_SIZE bytes (R52, R118). -/
def assembleText (text : List (List Char)) : Except AsmError (List Byte) :=
  match parseLines text with
  | .ok ls => if ls.length ≤ Config.memSize then .ok (assemble ls) else .error .tooLong
  | .error e => .error e

end Sys2Proof.Machine
end

