-- ==== Sys2Proof/Safety.lean ====
section
/-! DEFINITION. What counts as a legal state, and how a run ends. -/

namespace Sys2Proof.Machine

open Sys2Proof

/-- A legal STATUS (R22, R24): bits [7:5] are 0, CAUSE is NONE unless STATE is FAULTED, and then it is one of the
errors that can end a run: 1, 2 or 4, never 3. -/
def StatusLegal (s : State) : Prop :=
  s.status.extractLsb' 5 3 = 0#3 ∧
  (s.runState ≠ .faulted → s.cause = causeNone) ∧
  (s.runState = .faulted → s.cause = 1#3 ∨ s.cause = 2#3 ∨ s.cause = 4#3)

/-- A legal state: pc in 0..0x0100 (R29), sp in 0..0x00FF (R18), a legal STATUS (R22, R24), and memory in its
canonical form inside the array (R30). -/
structure State.Legal (s : State) : Prop where
  pc_le : s.pc.toNat ≤ 0x0100
  sp_le : s.sp.toNat ≤ 0x00FF
  status_legal : StatusLegal s
  mem_wf : Memory.wf s.mem

/-- The run ended successfully (R90). -/
def RunSucceeded (s : State) : Prop := s.runState = .halted

/-- The run failed with this error (R90). -/
def RunFailed (e : ErrorKind) (s : State) : Prop := s.runState = .faulted ∧ s.cause = e.code

/-- Two states that agree on every register and on memory; only the output trace may differ (R89). -/
def SameButDiag (s t : State) : Prop :=
  s.pc = t.pc ∧ s.sp = t.sp ∧ s.acc = t.acc ∧ s.status = t.status ∧ s.mem = t.mem

end Sys2Proof.Machine
end

