-- ==== Sys2Proof/Certificates/Slice0/Obligations.lean ====
section
/-! DEFINITION. The statements for the provers. Each docstring names the rules of spec/ it formalises and, where it
rests on a decision of the spec (D<n>) or a choice of the model (a log entry), says so. -/

open Sys2Proof Sys2Proof.Machine

/-! ### Encoding -/

/-- Decoding the byte of a well-formed instruction gives it back, for all constructors and operands, and one byte
is all that is read (R46, R48, R50, R51). -/
def Obligations.DecodeOfEncode : Prop :=
  ∀ i : Instr, i.wf = true →
    decode (encode i) = i ∧ ∀ rest : List Byte, decodeBytes (encodeBytes i ++ rest) = .ok (i, rest)

/-- Every byte decodes to a well-formed instruction whose byte it is (R50). -/
def Obligations.EncodeOfDecode : Prop :=
  ∀ b : Byte, encode (decode b) = b ∧ (decode b).wf = true

/-- The decoder's five classes (R54). -/
def Obligations.DecoderClassOfEveryByte : Prop :=
  decode 0x00#8 = .halt ∧ decode 0x01#8 = .incPush ∧ decode 0x02#8 = .popAcc ∧ decode 0x03#8 = .dec ∧
  ∀ b : Byte, 4 ≤ b.toNat →
    decode b = .unknown04 b ∨ decode b = .unknown08 b ∨ decode b = .unknown10 b ∨
    decode b = .unknown20 b ∨ decode b = .unknown40 b ∨ decode b = .unknown80 b

/-- The ten rows of the opcode map take in every byte exactly once, and the decoder answers the row that takes it
in (R50). -/
def Obligations.OpcodeRowsCoverEveryByteOnce : Prop :=
  ∀ b : Byte, (opcodeMap.filter (fun r => r.covers b)).length = 1 ∧
    (decode b).row.covers b = true ∧ (decode b).row ∈ opcodeMap

/-- Words written out from the encodings of the table decode to their rows (R48, R50). -/
def Obligations.TableWordsDecode : Prop :=
  decodeTableWord 8 0b00000000 = some .halt ∧
  decodeTableWord 8 0b00000001 = some .incPush ∧
  decodeTableWord 8 0b00000010 = some .popAcc ∧
  decodeTableWord 8 0b00000011 = some .dec ∧
  decodeTableWord 8 0b00000101 = some (.unknown04 0x05#8) ∧
  decodeTableWord 8 0b00001111 = some (.unknown08 0x0F#8) ∧
  decodeTableWord 8 0b00010000 = some (.unknown10 0x10#8) ∧
  decodeTableWord 8 0b00111111 = some (.unknown20 0x3F#8) ∧
  decodeTableWord 8 0b01000000 = some (.unknown40 0x40#8) ∧
  decodeTableWord 8 0b11111111 = some (.unknown80 0xFF#8)

/-- Each mnemonic assembles to the byte that decodes to its instruction, `.byte` to the byte it names, and an image
has one byte a line (R52, R53, D16). -/
def Obligations.AssemblerGivesOneByteALine : Prop :=
  decode (assembleLine .halt) = .halt ∧ decode (assembleLine .incPush) = .incPush ∧
  decode (assembleLine .popAcc) = .popAcc ∧ decode (assembleLine .dec) = .dec ∧
  (∀ b : Byte, assembleLine (.byte b) = b) ∧
  ∀ ls : List SourceLine, (assemble ls).length = ls.length

/-! ### Instructions: where they complete, and with what -/

/-- HALT completes in every state: STATE becomes HALTED, CAUSE stays, and nothing else changes (R57; STATUS is D5). -/
def Obligations.HaltCompletes : Prop :=
  ∀ s : State, ∃ t : State, exec .halt s = .next t ∧
    t.runState = .halted ∧ t.cause = s.cause ∧ t.status.extractLsb' 5 3 = 0#3 ∧
    t.pc = s.pc ∧ t.sp = s.sp ∧ t.acc = s.acc ∧ t.mem = s.mem ∧ t.diag = s.diag

/-- A step that fetches HALT has the fetch's pc increment and the STATUS write for its only effects (R58). -/
def Obligations.HaltStepOnlyAdvancesPcAndWritesStatus : Prop :=
  ∀ s : State, s.runState = .running → s.pc.toNat < 256 → s.byteAt s.pc.toNat = 0x00#8 →
    ∃ t : State, step s = .next t ∧
      t.pc.toNat = s.pc.toNat + 1 ∧ t.runState = .halted ∧ t.cause = s.cause ∧
      t.sp = s.sp ∧ t.acc = s.acc ∧ t.mem = s.mem ∧ t.diag = s.diag

/-- INC_PUSH completes wherever there is a slot below: acc is incremented modulo 256, the new acc is stored at
sp - 1, and nothing else changes but sp (R66, R71). -/
def Obligations.IncPushCompletes : Prop :=
  ∀ s : State, s.sp ≠ 0#16 → s.sp.toNat ≤ 0x0100 →
    ∃ t : State, exec .incPush s = .next t ∧
      t.acc.toNat = (s.acc.toNat + 1) % 256 ∧ t.sp.toNat = s.sp.toNat - 1 ∧
      t.byteAt (s.sp - 1#16).toNat = t.acc ∧
      (∀ a : Nat, a ≠ (s.sp - 1#16).toNat → t.byteAt a = s.byteAt a) ∧
      t.pc = s.pc ∧ t.status = s.status ∧ t.diag = s.diag

/-- INC_PUSH at sp = 0 takes StackOverflow: acc keeps the increment (R66, R92, R97; D4), sp, pc and memory are
unchanged, and STATUS is FAULTED/1 (R96; D5). -/
def Obligations.IncPushOverflowTakesError : Prop :=
  ∀ s : State, s.sp = 0#16 →
    ∃ t : State, exec .incPush s = .next t ∧
      t.acc.toNat = (s.acc.toNat + 1) % 256 ∧ RunFailed .stackOverflow t ∧
      t.sp = 0#16 ∧ t.pc = s.pc ∧ t.mem = s.mem ∧ t.diag = s.diag

/-- The model's own fault (R11, I12; log entry 5): a push from sp above 0x0100, where no run gets, would store
outside the array. -/
def Obligations.IncPushOutsideMemoryStops : Prop :=
  ∀ s : State, 0x0100 < s.sp.toNat → exec .incPush s = .fault (.memoryIndex (s.sp - 1#16))

/-- POP_ACC completes wherever the stack holds something: acc takes the byte at sp, sp is incremented, and the byte
is not cleared (R67, R72; the bound SP_EMPTY is D2). -/
def Obligations.PopAccCompletes : Prop :=
  ∀ s : State, s.sp.toNat < 0x00FF →
    ∃ t : State, exec .popAcc s = .next t ∧
      t.acc = s.byteAt s.sp.toNat ∧ t.sp.toNat = s.sp.toNat + 1 ∧
      t.pc = s.pc ∧ t.status = s.status ∧ t.mem = s.mem ∧ t.diag = s.diag

/-- POP_ACC on the empty stack takes StackUnderflow and changes STATUS alone (R67, R93, R97; D2, D5). -/
def Obligations.PopAccUnderflowTakesError : Prop :=
  ∀ s : State, 0x00FF ≤ s.sp.toNat →
    ∃ t : State, exec .popAcc s = .next t ∧ RunFailed .stackUnderflow t ∧
      t.acc = s.acc ∧ t.sp = s.sp ∧ t.pc = s.pc ∧ t.mem = s.mem ∧ t.diag = s.diag

/-- DEC, byte 0x03, completes in every state: acc becomes (acc + 0xFF) mod 2^8, no other register, no flag and no byte
of memory changes, and no error arises; the step that fetches it also moves pc past it (R68). -/
def Obligations.DecCompletes : Prop :=
  decode 0x03#8 = .dec ∧
  (∀ s : State, ∃ t : State, exec .dec s = .next t ∧
    t.acc.toNat = (s.acc.toNat + 255) % 256 ∧
    t.sp = s.sp ∧ t.pc = s.pc ∧ t.status = s.status ∧ t.mem = s.mem ∧ t.diag = s.diag ∧
    ∀ a : Nat, t.byteAt a = s.byteAt a) ∧
  (∀ s : State, s.runState = .running → s.pc.toNat < 256 → s.byteAt s.pc.toNat = 0x03#8 →
    ∃ t : State, step s = .next t ∧ t.acc.toNat = (s.acc.toNat + 255) % 256 ∧
      t.pc.toNat = s.pc.toNat + 1 ∧ t.sp = s.sp ∧ t.status = s.status ∧ t.mem = s.mem)

/-- Each of the six UNKNOWN rows completes in every state: one event DIAG(pc - 1, op) and no change to pc, sp, acc,
memory or STATUS; and every byte 0x04 to 0xFF decodes to one of them (R69). The output trace is log entry 6. -/
def Obligations.UnknownOpcodesComplete : Prop :=
  (∀ (op : Byte) (s : State),
    exec (.unknown04 op) s = .next { s with diag := s.diag ++ [⟨s.pc - 1#16, op⟩] } ∧
    exec (.unknown08 op) s = .next { s with diag := s.diag ++ [⟨s.pc - 1#16, op⟩] } ∧
    exec (.unknown10 op) s = .next { s with diag := s.diag ++ [⟨s.pc - 1#16, op⟩] } ∧
    exec (.unknown20 op) s = .next { s with diag := s.diag ++ [⟨s.pc - 1#16, op⟩] } ∧
    exec (.unknown40 op) s = .next { s with diag := s.diag ++ [⟨s.pc - 1#16, op⟩] } ∧
    exec (.unknown80 op) s = .next { s with diag := s.diag ++ [⟨s.pc - 1#16, op⟩] }) ∧
  ∀ (b : Byte) (s : State), 4 ≤ b.toNat →
    exec (decode b) s = .next { s with diag := s.diag ++ [⟨s.pc - 1#16, b⟩] }

/-- No encoding traps: a RUNNING core that fetches a byte 0x04 to 0xFF goes on RUNNING, with no register or memory
effect beyond the fetch and one diagnostic (R49). -/
def Obligations.UnknownOpcodesNeverTrap : Prop :=
  ∀ s : State, s.runState = .running → s.pc.toNat < 256 → 4 ≤ (s.byteAt s.pc.toNat).toNat →
    ∃ t : State, step s = .next t ∧ t.runState = .running ∧ t.status = s.status ∧
      t.pc = s.pc + 1#16 ∧ t.sp = s.sp ∧ t.acc = s.acc ∧ t.mem = s.mem ∧
      t.diag = s.diag ++ [⟨s.pc, s.byteAt s.pc.toNat⟩]

/-! ### Frames -/

/-- The frame of the instructions that store nothing, HALT, POP_ACC, DEC and the UNKNOWN rows (R28): pc and every byte
of memory stay; sp changes only by POP_ACC; acc only by POP_ACC and DEC; STATUS only by HALT, which keeps CAUSE, and by
POP_ACC on the empty stack, which then keeps acc and sp; the trace only by the UNKNOWN rows. -/
def Obligations.NonStoringInstructionsFrame : Prop :=
  ∀ (i : Instr) (s t : State), i ≠ .incPush → exec i s = .next t →
    t.pc = s.pc ∧ t.mem = s.mem ∧ (∀ a : Nat, t.byteAt a = s.byteAt a) ∧
    (i ≠ .popAcc → t.sp = s.sp) ∧
    (i ≠ .popAcc → i ≠ .dec → t.acc = s.acc) ∧
    (i ≠ .popAcc → i ≠ .halt → t.status = s.status) ∧
    (i = .halt → t.cause = s.cause) ∧
    (i = .popAcc → s.sp.toNat < 0x00FF → t.status = s.status) ∧
    (i = .popAcc → 0x00FF ≤ s.sp.toNat → t.acc = s.acc ∧ t.sp = s.sp) ∧
    (i = .halt ∨ i = .popAcc ∨ i = .dec → t.diag = s.diag)

/-- The frame of INC_PUSH, which stores one byte at sp - 1 (R28, R66): pc and the trace stay, every other byte stays;
STATUS changes only by the overflow at sp = 0, where sp and all of memory stay. -/
def Obligations.IncPushFrame : Prop :=
  ∀ s t : State, exec .incPush s = .next t →
    t.pc = s.pc ∧ t.diag = s.diag ∧
    (∀ a : Nat, a ≠ (s.sp - 1#16).toNat → t.byteAt a = s.byteAt a) ∧
    (s.sp ≠ 0#16 → t.status = s.status ∧ t.sp = s.sp - 1#16) ∧
    (s.sp = 0#16 → t.sp = s.sp ∧ t.mem = s.mem ∧ ∀ a : Nat, t.byteAt a = s.byteAt a)

/-! ### The stack sequencer -/

/-- push(v) (R71): the guard `sp = 0`; then the decrement and the write at the new sp, with nothing else changed; the
n-th push from reset's sp = 0xFF writes index 0xFF - n. Above sp = 0x0100 the write would lie outside the array
(log entry 5). -/
def Obligations.PushGuardsDecrementsAndWrites : Prop :=
  (∀ (v : Byte) (s : State), s.sp = 0#16 → push v s = .raised .stackOverflow s) ∧
  (∀ (v : Byte) (s : State), s.sp ≠ 0#16 → s.sp.toNat ≤ 0x0100 →
    ∃ t : State, push v s = .ok () t ∧ t.sp = s.sp - 1#16 ∧ t.byteAt t.sp.toNat = v ∧
      (∀ a : Nat, a ≠ t.sp.toNat → t.byteAt a = s.byteAt a) ∧
      t.pc = s.pc ∧ t.acc = s.acc ∧ t.status = s.status ∧ t.diag = s.diag) ∧
  (∀ (vs : List Byte) (v : Byte) (s : State), s.sp = 0x00FF#16 → vs.length < 255 →
    ∃ t u : State, pushAll vs s = .ok () t ∧ push v t = .ok () u ∧
      u.sp.toNat = 0xFF - (vs.length + 1) ∧ u.byteAt (0xFF - (vs.length + 1)) = v)

/-- pop() (R72; the bound is D2): StackUnderflow at sp of 0xFF or above, with nothing changed; else the byte at sp, and
sp incremented. -/
def Obligations.PopGuardsReadsAndIncrements : Prop :=
  (∀ s : State, 0x00FF ≤ s.sp.toNat → pop s = .raised .stackUnderflow s) ∧
  (∀ s : State, s.sp.toNat < 0x00FF →
    ∃ t : State, pop s = .ok (s.byteAt s.sp.toNat) t ∧ t.sp.toNat = s.sp.toNat + 1 ∧
      t.pc = s.pc ∧ t.acc = s.acc ∧ t.status = s.status ∧ t.mem = s.mem ∧ t.diag = s.diag)

/-- peek() and poke(v) (R73, R74; the bound is D2): InvalidStackAccess at sp of 0xFF or above, with nothing changed;
else the byte at sp is read, or written and no other. sp stays. -/
def Obligations.PeekAndPokeTouchTheTopByte : Prop :=
  (∀ s : State, 0x00FF ≤ s.sp.toNat →
    peek s = .raised .invalidStackAccess s ∧ ∀ v : Byte, poke v s = .raised .invalidStackAccess s) ∧
  (∀ s : State, s.sp.toNat < 0x00FF →
    peek s = .ok (s.byteAt s.sp.toNat) s ∧
    ∀ v : Byte, ∃ t : State, poke v s = .ok () t ∧ t.byteAt s.sp.toNat = v ∧
      (∀ a : Nat, a ≠ s.sp.toNat → t.byteAt a = s.byteAt a) ∧
      t.sp = s.sp ∧ t.pc = s.pc ∧ t.acc = s.acc ∧ t.status = s.status ∧ t.diag = s.diag)

/-- Push and pop pair up exactly, from every sp in 0x01..0xFF; peek after push gives the pushed byte, and peek after
poke the poked one; at sp = 0 the push raises StackOverflow (R75). -/
def Obligations.PushThenPopRestores : Prop :=
  (∀ (v : Byte) (s : State), 1 ≤ s.sp.toNat → s.sp.toNat ≤ 0x00FF →
    ∃ t u : State, push v s = .ok () t ∧ peek t = .ok v t ∧ pop t = .ok v u ∧ u.sp = s.sp ∧
      u.byteAt (s.sp.toNat - 1) = v ∧
      (∀ x : Byte, ∃ p : State, poke x t = .ok () p ∧ peek p = .ok x p)) ∧
  (∀ (v : Byte) (s : State), s.sp = 0#16 → push v s = .raised .stackOverflow s)

/-- Capacity (R76): from sp = 0xFF any 255 pushes succeed and fill 0xFE down to 0x00 in order, index 0xFF keeps its
byte, and the 256th push raises StackOverflow with sp = 0. -/
def Obligations.StackHoldsExactly255Bytes : Prop :=
  ∀ (vs : List Byte) (s : State), s.sp = 0x00FF#16 → vs.length = 255 →
    ∃ t : State, pushAll vs s = .ok () t ∧ t.sp = 0#16 ∧
      (∀ (n : Nat) (v : Byte), vs[n]? = some v → t.byteAt (0xFE - n) = v) ∧
      t.byteAt 0xFF = s.byteAt 0xFF ∧
      ∀ v : Byte, push v t = .raised .stackOverflow t

/-- From every sp up to 0xFF none of push, pop, peek and poke writes index 0xFF, and none reads it: what pop and peek
answer does not depend on the byte there (R76, R37). -/
def Obligations.StackNeverTouchesSentinel : Prop :=
  ∀ s : State, s.sp.toNat ≤ 0x00FF →
    (∀ (v : Byte) (t : State), push v s = .ok () t → t.byteAt 0xFF = s.byteAt 0xFF) ∧
    (∀ (v : Byte) (t : State), poke v s = .ok () t → t.byteAt 0xFF = s.byteAt 0xFF) ∧
    (∀ (x v : Byte) (t : State), pop s = .ok v t →
      t.byteAt 0xFF = s.byteAt 0xFF ∧ ∃ u : State, pop (s.storeByte 0xFF x) = .ok v u) ∧
    (∀ (x v : Byte) (t : State), peek s = .ok v t →
      t.byteAt 0xFF = s.byteAt 0xFF ∧ ∃ u : State, peek (s.storeByte 0xFF x) = .ok v u)

/-- Push does not check for collision with the program: from every sp in 0x01..0xFF it succeeds over any contents of
memory and writes index sp - 1 (R77). -/
def Obligations.PushIgnoresWhatItOverwrites : Prop :=
  ∀ (v : Byte) (m : Memory) (s : State), 1 ≤ s.sp.toNat → s.sp.toNat ≤ 0x00FF →
    ∃ t : State, push v { s with mem := m } = .ok () t ∧ t.byteAt (s.sp.toNat - 1) = v

/-! ### Fetch, step and errors -/

/-- fetch() (R55, R56; D3): past the array it raises OutOfBoundsFetch and changes nothing; inside it reads the byte at
pc and increments pc by 1, and changes nothing else. -/
def Obligations.FetchReadsThenIncrements : Prop :=
  (∀ s : State, 256 ≤ s.pc.toNat → fetch s = .raised .outOfBoundsFetch s) ∧
  (∀ s : State, s.pc.toNat < 256 →
    ∃ t : State, fetch s = .ok (s.byteAt s.pc.toNat) t ∧ t.pc.toNat = s.pc.toNat + 1 ∧
      t.sp = s.sp ∧ t.acc = s.acc ∧ t.status = s.status ∧ t.mem = s.mem ∧ t.diag = s.diag)

/-- A step of a RUNNING core whose byte at pc decodes to i is exec of i at the state with pc moved past the byte; the
decoded instruction is well-formed (R59). -/
def Obligations.StepRunsTheDecodedInstruction : Prop :=
  ∀ (s : State) (i : Instr), s.runState = .running → s.pc.toNat < 256 → decode (s.byteAt s.pc.toNat) = i →
    i.wf = true ∧ step s = exec i { s with pc := s.pc + 1#16 }

/-- A step with pc past the array takes OutOfBoundsFetch and changes STATUS alone (R95, R96, R97; D3, D5). -/
def Obligations.StepPastTheEndTakesError : Prop :=
  ∀ s : State, s.runState = .running → 256 ≤ s.pc.toNat →
    ∃ t : State, step s = .next t ∧ RunFailed .outOfBoundsFetch t ∧
      t.pc = s.pc ∧ t.sp = s.sp ∧ t.acc = s.acc ∧ t.mem = s.mem ∧ t.diag = s.diag

/-- In IDLE, HALTED and FAULTED the core takes no step and keeps all registers and memory, however long it is left
(R107). That the model's step then answers the same state, and does not stop, is the model's choice (log entry 1). -/
def Obligations.StoppedCoreKeepsItsState : Prop :=
  ∀ (n : Nat) (s : State), s.runState ≠ .running →
    runLoop n s = .next s ∧ Host.Core.run Sys2Proof.core n s = .next s

/-- What taking an error does (R96; D5): STATE FAULTED, CAUSE the code, bits [7:5] zero, and nothing else. -/
def Obligations.TakingAnErrorWritesOnlyStatus : Prop :=
  ∀ (e : ErrorKind) (s : State),
    RunFailed e (takeError e s) ∧ (takeError e s).status.extractLsb' 5 3 = 0#3 ∧
    (takeError e s).pc = s.pc ∧ (takeError e s).sp = s.sp ∧ (takeError e s).acc = s.acc ∧
    (takeError e s).mem = s.mem ∧ (takeError e s).diag = s.diag

/-- Every step of a RUNNING core advances pc by exactly 1, unless its fetch fails, which keeps pc (R60, R55). -/
def Obligations.EveryStepAdvancesPcByOne : Prop :=
  ∀ s t : State, s.runState = .running → step s = .next t →
    (s.pc.toNat < 256 → t.pc.toNat = s.pc.toNat + 1) ∧ (256 ≤ s.pc.toNat → t.pc = s.pc)

/-- Fetch is coherent with pushes (R42; D11): an INC_PUSH that stores over the very next opcode is followed by the
instruction the pushed byte encodes. -/
def Obligations.FetchSeesThePushedByte : Prop :=
  ∀ s : State, s.runState = .running → s.pc.toNat < 255 → s.byteAt s.pc.toNat = 0x01#8 →
    s.sp.toNat = s.pc.toNat + 2 →
    ∃ t : State, step s = .next t ∧ t.runState = .running ∧ t.acc = s.acc + 1#8 ∧
      step t = exec (decode (s.acc + 1#8)) { t with pc := t.pc + 1#16 }

/-- STATE changes in a step only from RUNNING: to HALTED by fetching HALT, or to FAULTED by an error (R23; D6). -/
def Obligations.StepChangesStateOnlyByHaltOrError : Prop :=
  ∀ s t : State, step s = .next t → t.runState ≠ s.runState →
    s.runState = .running ∧
    ((t.runState = .halted ∧ s.pc.toNat < 256 ∧ s.byteAt s.pc.toNat = 0x00#8 ∧ t.cause = s.cause) ∨
     RunFailed .outOfBoundsFetch t ∨ RunFailed .stackOverflow t ∨ RunFailed .stackUnderflow t)

/-- Which error a step takes, and exactly when (R91 to R95, R99; D2, D3): the fetch guard first, then the one guard of
the opcode; a step never raises InvalidStackAccess. -/
def Obligations.StepErrorsExactlyOnTheirConditions : Prop :=
  ∀ s t : State, s.runState = .running → step s = .next t →
    (RunFailed .outOfBoundsFetch t ↔ 256 ≤ s.pc.toNat) ∧
    (RunFailed .stackOverflow t ↔ s.pc.toNat < 256 ∧ s.byteAt s.pc.toNat = 0x01#8 ∧ s.sp = 0#16) ∧
    (RunFailed .stackUnderflow t ↔ s.pc.toNat < 256 ∧ s.byteAt s.pc.toNat = 0x02#8 ∧ 0x00FF ≤ s.sp.toNat) ∧
    ¬ RunFailed .invalidStackAccess t

/-- The access matrix of steps (R28): a byte of memory changes only by an INC_PUSH, at sp - 1; sp only by INC_PUSH and
POP_ACC; acc only by INC_PUSH, POP_ACC and DEC. -/
def Obligations.StepsWriteOnlyWhatTheMatrixAllows : Prop :=
  ∀ s t : State, step s = .next t →
    (∀ a : Nat, t.byteAt a ≠ s.byteAt a →
      s.byteAt s.pc.toNat = 0x01#8 ∧ s.sp ≠ 0#16 ∧ a = (s.sp - 1#16).toNat) ∧
    (t.sp ≠ s.sp → s.byteAt s.pc.toNat = 0x01#8 ∨ s.byteAt s.pc.toNat = 0x02#8) ∧
    (t.acc ≠ s.acc →
      s.byteAt s.pc.toNat = 0x01#8 ∨ s.byteAt s.pc.toNat = 0x02#8 ∨ s.byteAt s.pc.toNat = 0x03#8)

/-! ### Reset and invariants -/

/-- The reset values of the registers and STATUS (R109, R110, R112; D5). -/
def Obligations.ResetStateHoldsResetValues : Prop :=
  State.reset.pc = 0x0000#16 ∧ State.reset.sp = 0x00FF#16 ∧ State.reset.acc = 0x00#8 ∧
  State.reset.runState = .idle ∧ State.reset.cause = causeNone ∧ State.reset.statusOut = 0x00#8

/-- RESET in IDLE, HALTED and FAULTED (R80, R111): the response is OK, the result does not depend on the previous values,
memory is not altered, two resets in a row equal one; while RUNNING the host has no such move, which the model answers
with the refusal hostDuringRun (the spec's decision D7, the model's choice, log entry 8). -/
def Obligations.ResetIgnoresPriorState : Prop :=
  (∀ s : State, s.runState ≠ .running →
    ∃ t : State, hostCommand .reset s = .next (.ok, t) ∧
      t.pc = 0x0000#16 ∧ t.sp = 0x00FF#16 ∧ t.acc = 0x00#8 ∧ t.runState = .idle ∧ t.cause = causeNone ∧
      t.mem = s.mem ∧ hostCommand .reset t = .next (.ok, t) ∧
      ∀ u : State, u.runState ≠ .running → u.mem = s.mem →
        ∃ v : State, hostCommand .reset u = .next (.ok, v) ∧ SameButDiag t v) ∧
  (∀ s : State, s.runState = .running → hostCommand .reset s = .refused .hostDuringRun)

/-- NEW sets the registers and STATUS to their initial values, exactly as RESET does, answers OK and does not write
memory (R79); it is accepted in every state, RUNNING too (R78). -/
def Obligations.NewInitialisesInEveryState : Prop :=
  ∀ s : State, ∃ t : State, hostCommand .new s = .next (.ok, t) ∧
    t.pc = 0x0000#16 ∧ t.sp = 0x00FF#16 ∧ t.acc = 0x00#8 ∧ t.runState = .idle ∧ t.cause = causeNone ∧
    t.mem = s.mem ∧ (s.runState ≠ .running → hostCommand .reset s = .next (.ok, t))

/-- The state after reset is legal: pc and sp in range, STATUS legal, memory canonical (R18, R22, R24, R29). -/
def Obligations.ResetStateIsLegal : Prop := State.reset.Legal

/-- Every step keeps the legal states: pc in 0..0x0100, sp in 0..0x00FF, a legal STATUS, canonical memory inside the
array (R18, R22, R24, R29, R30). -/
def Obligations.StepKeepsStatesLegal : Prop :=
  ∀ s t : State, s.Legal → step s = .next t → t.Legal

/-- Every host command keeps the legal states, a whole RUN too (R18, R24, R29, R98). -/
def Obligations.HostCommandKeepsStatesLegal : Prop :=
  ∀ (c : HostCommand) (s t : State) (r : HostResponse), s.Legal → hostCommand c s = .next (r, t) → t.Legal

/-- From a legal state nothing stops the model: the core always has a next state, and every command the host may issue
gets a response (R11, R32, R78). That a core in IDLE, HALTED or FAULTED, which takes no step (R23, R107), has its own state
for next state is the model's reading (log entry 1). -/
def Obligations.LegalStatesNeverStop : Prop :=
  ∀ s : State, s.Legal →
    (∃ t : State, step s = .next t) ∧
    ∀ c : HostCommand, hostAccepts c s = true → ∃ (r : HostResponse) (t : State), hostCommand c s = .next (r, t)

/-! ### Runs -/

/-- Every run ends within MEM_SIZE - pc + 1 fetch attempts, HALTED or FAULTED (R61, R90). -/
def Obligations.EveryRunEndsWithinItsBound : Prop :=
  ∀ s : State, s.Legal → s.runState = .running →
    ∃ t : State, runLoop (256 - s.pc.toNat + 1) s = .next t ∧ (t.runState = .halted ∨ t.runState = .faulted)

/-- The run loop is the iterated step of the machine the host runs (R63). After the run has ended, and from a stopped
state, the two agree because the model's step then answers the same state, which is the model's reading (log entry 1). -/
def Obligations.RunLoopIsTheIteratedStep : Prop :=
  ∀ (n : Nat) (s : State), runLoop n s = Host.Core.run Sys2Proof.core n s

/-- RUN (R81; resuming without reset is D6): it starts from the state with STATUS RUNNING/NONE and all else kept, runs
the loop to its end, and responds OK if HALTED and ERR(CAUSE) if FAULTED. -/
def Obligations.RunStartsAtPcAndAnswersHowItEnded : Prop :=
  ∀ s : State, s.Legal → s.runState ≠ .running →
    ∃ (s0 t : State) (r : HostResponse),
      s0.pc = s.pc ∧ s0.sp = s.sp ∧ s0.acc = s.acc ∧ s0.mem = s.mem ∧ s0.diag = s.diag ∧
      s0.runState = .running ∧ s0.cause = causeNone ∧
      runLoop (256 - s.pc.toNat + 1) s0 = .next t ∧ hostCommand .run s = .next (r, t) ∧
      ((RunSucceeded t ∧ r = .ok) ∨ (t.runState = .faulted ∧ r = .err t.cause))

/-- Nothing reads the diagnostic output (R89, R27): from two states that differ in it alone, the core's step, and every host
command, a whole RUN too, end in states that differ in it alone, and the command's responses are equal. The output trace is
log entry 6, and the step of a stopped core log entry 1. -/
def Obligations.DiagnosticsInfluenceNothing : Prop :=
  (∀ s t s' : State, SameButDiag s t → step s = .next s' →
    ∃ t' : State, step t = .next t' ∧ SameButDiag s' t') ∧
  (∀ (c : HostCommand) (r : HostResponse) (s t s' : State), SameButDiag s t → hostCommand c s = .next (r, s') →
    ∃ t' : State, hostCommand c t = .next (r, t') ∧ SameButDiag s' t')

/-! ### The host port and memory -/

/-- The host stack commands between runs (R82 to R85, R98; D2, D8): their responses with and without error; STATUS is
never written and an error changes nothing. -/
def Obligations.HostStackCommandsAnswer : Prop :=
  ∀ s : State, s.runState ≠ .running →
    (∀ v : Byte, s.sp = 0#16 → hostCommand (.push v) s = .next (.err 1#3, s)) ∧
    (∀ v : Byte, s.sp ≠ 0#16 → s.sp.toNat ≤ 0x00FF → ∃ t : State, push v s = .ok () t ∧
      hostCommand (.push v) s = .next (.ok, t) ∧ t.status = s.status) ∧
    (0x00FF ≤ s.sp.toNat →
      hostCommand .pop s = .next (.err 2#3, s) ∧ hostCommand .peek s = .next (.err 3#3, s) ∧
      ∀ v : Byte, hostCommand (.poke v) s = .next (.err 3#3, s)) ∧
    (s.sp.toNat < 0x00FF →
      (∃ t : State, pop s = .ok (s.byteAt s.sp.toNat) t ∧
        hostCommand .pop s = .next (.okByte (s.byteAt s.sp.toNat), t) ∧ t.status = s.status) ∧
      hostCommand .peek s = .next (.okByte (s.byteAt s.sp.toNat), s) ∧
      ∀ v : Byte, ∃ t : State, poke v s = .ok () t ∧ hostCommand (.poke v) s = .next (.ok, t) ∧
        t.status = s.status)

/-- MEM_WRITE and MEM_READ between runs reach any index, change no register and no other byte, and a program is loaded by
MEM_WRITE of its bytes from index 0 upward (R87). -/
def Obligations.HostMemoryCommandsReachEveryIndex : Prop :=
  (∀ (a v : Byte) (s : State), s.runState ≠ .running →
    (∃ t : State, hostCommand (.memWrite a v) s = .next (.ok, t) ∧ t.byteAt a.toNat = v ∧
      (∀ b : Nat, b ≠ a.toNat → t.byteAt b = s.byteAt b) ∧
      t.pc = s.pc ∧ t.sp = s.sp ∧ t.acc = s.acc ∧ t.status = s.status ∧ t.diag = s.diag) ∧
    hostCommand (.memRead a) s = .next (.okByte (s.byteAt a.toNat), s)) ∧
  (∀ (image : List Byte) (s : State), s.runState ≠ .running → image.length ≤ 256 →
    ∃ (rs : List HostResponse) (t : State), hostSession (loadCommands image) s = .next (rs, t) ∧
      (∀ (n : Nat) (v : Byte), image[n]? = some v → t.byteAt n = v) ∧
      (∀ a : Nat, image.length ≤ a → t.byteAt a = s.byteAt a) ∧
      t.pc = s.pc ∧ t.sp = s.sp ∧ t.acc = s.acc ∧ t.status = s.status)

/-- A byte the host writes between runs is what the next run fetches (R45): MEM_WRITE at the index pc holds, then RUN's
start, and the core's step runs the instruction that byte encodes. -/
def Obligations.HostWritesAreFetchedByTheRun : Prop :=
  ∀ (a v : Byte) (s : State), s.runState ≠ .running → s.pc.toNat = a.toNat →
    ∃ t : State, hostCommand (.memWrite a v) s = .next (.ok, t) ∧
      step (startRun t) = exec (decode v) { startRun t with pc := s.pc + 1#16 }

/-- READ_REGS returns the values of pc, sp, acc and STATUS and changes nothing (R86). -/
def Obligations.ReadRegsReturnsTheRegisters : Prop :=
  ∀ s : State, s.runState ≠ .running →
    hostCommand .readRegs s = .next (.okRegs s.pc s.sp s.acc s.statusOut, s)

/-- The layout of STATUS as read out (R22, R24; D5): STATE in bits [1:0] and CAUSE in bits [4:2] with the spec's codes,
bits [7:5] zero whatever the field holds. -/
def Obligations.StatusReadOutLayout : Prop :=
  (∀ s : State, s.statusOut.extractLsb' 5 3 = 0#3 ∧ RunState.ofCode (s.statusOut.extractLsb' 0 2) = s.runState ∧
    s.statusOut.extractLsb' 2 3 = s.cause) ∧
  (∀ s : State, (setStatus .idle causeNone s).statusOut = 0x00#8 ∧
    (setStatus .running causeNone s).statusOut = 0x01#8 ∧ (setStatus .halted causeNone s).statusOut = 0x02#8 ∧
    (takeError .stackOverflow s).statusOut = 0x07#8 ∧ (takeError .stackUnderflow s).statusOut = 0x0B#8 ∧
    (takeError .outOfBoundsFetch s).statusOut = 0x13#8)

/-- While RUNNING the host has no move but NEW; otherwise no command is turned away for that reason (R78, R88; D7). That the
missing move is the refusal hostDuringRun is the model's choice (log entry 8). -/
def Obligations.HostMovesOnlyBetweenRuns : Prop :=
  (∀ (c : HostCommand) (s : State), s.runState = .running → c ≠ .new →
    hostCommand c s = .refused .hostDuringRun) ∧
  (∀ (c : HostCommand) (s : State), s.runState ≠ .running → hostAccepts c s = true)

/-- Through the memory port a read returns the byte of the latest write to its index, and a write leaves every other
index (R36, R39). -/
def Obligations.MemoryReadsReturnTheLatestWrite : Prop :=
  ∀ (i j : Word) (v : Byte) (s : State), i.toNat < 256 → j.toNat < 256 →
    ∃ t : State, memWrite i v s = .ok () t ∧
      memRead j t = .ok (if j = i then v else s.byteAt j.toNat) t ∧
      t.pc = s.pc ∧ t.sp = s.sp ∧ t.acc = s.acc ∧ t.status = s.status ∧ t.diag = s.diag

/-- The canonical form is unique: two canonical memories that hold the same written byte at every index are equal data
(log entry 2). -/
def Obligations.CanonicalMemoriesWithEqualBytesAreEqual : Prop :=
  ∀ m n : Memory, Memory.wf m → Memory.wf n → (∀ a : Nat, Memory.find m a = Memory.find n a) → m = n

/-- What the host's placing of a table word does (log entry 3). The next step runs the instruction decoded from the word, at
the placed state with pc moved past the byte. The placed state keeps pc (or has it 0 where pc lies outside the array), sp, acc
and the trace, has STATUS RUNNING/NONE as RUN leaves it, and every byte but the one under pc reads as before. -/
def Obligations.PlacedWordRunsNext : Prop :=
  ∀ (s : State) (nbits w : Nat) (i : Instr), decodeTableWord nbits w = some i →
    step (s.withFetchWord nbits w) =
      exec i { s.withFetchWord nbits w with pc := (s.withFetchWord nbits w).pc + 1#16 } ∧
    (s.pc.toNat < 256 → (s.withFetchWord nbits w).pc = s.pc) ∧
    (256 ≤ s.pc.toNat → (s.withFetchWord nbits w).pc = 0x0000#16) ∧
    (∀ a : Nat, a ≠ (s.withFetchWord nbits w).pc.toNat → (s.withFetchWord nbits w).byteAt a = s.byteAt a) ∧
    (s.withFetchWord nbits w).sp = s.sp ∧ (s.withFetchWord nbits w).acc = s.acc ∧
    (s.withFetchWord nbits w).diag = s.diag ∧
    (s.withFetchWord nbits w).runState = .running ∧ (s.withFetchWord nbits w).cause = causeNone
end

