-- ==== Sys2Proof/Laws/State.lean ====
section
/-! SUPPORT. One lemma per field per update of State, each true by rfl. -/

namespace Sys2Proof.Machine

open Sys2Proof

variable (s : State) (w : Word) (b op : Byte) (a : Nat) (st : RunState) (c : BitVec 3) (e : ErrorKind)

@[simp] theorem writePc_pc : (writePc w s).pc = w := rfl
@[simp] theorem writePc_sp : (writePc w s).sp = s.sp := rfl
@[simp] theorem writePc_acc : (writePc w s).acc = s.acc := rfl
@[simp] theorem writePc_status : (writePc w s).status = s.status := rfl
@[simp] theorem writePc_mem : (writePc w s).mem = s.mem := rfl
@[simp] theorem writePc_diag : (writePc w s).diag = s.diag := rfl

@[simp] theorem writeSp_pc : (writeSp w s).pc = s.pc := rfl
@[simp] theorem writeSp_sp : (writeSp w s).sp = w := rfl
@[simp] theorem writeSp_acc : (writeSp w s).acc = s.acc := rfl
@[simp] theorem writeSp_status : (writeSp w s).status = s.status := rfl
@[simp] theorem writeSp_mem : (writeSp w s).mem = s.mem := rfl
@[simp] theorem writeSp_diag : (writeSp w s).diag = s.diag := rfl

@[simp] theorem writeAcc_pc : (writeAcc b s).pc = s.pc := rfl
@[simp] theorem writeAcc_sp : (writeAcc b s).sp = s.sp := rfl
@[simp] theorem writeAcc_acc : (writeAcc b s).acc = b := rfl
@[simp] theorem writeAcc_status : (writeAcc b s).status = s.status := rfl
@[simp] theorem writeAcc_mem : (writeAcc b s).mem = s.mem := rfl
@[simp] theorem writeAcc_diag : (writeAcc b s).diag = s.diag := rfl

@[simp] theorem storeByte_pc : (s.storeByte a b).pc = s.pc := rfl
@[simp] theorem storeByte_sp : (s.storeByte a b).sp = s.sp := rfl
@[simp] theorem storeByte_acc : (s.storeByte a b).acc = s.acc := rfl
@[simp] theorem storeByte_status : (s.storeByte a b).status = s.status := rfl
@[simp] theorem storeByte_mem : (s.storeByte a b).mem = Memory.store s.mem a b := rfl
@[simp] theorem storeByte_diag : (s.storeByte a b).diag = s.diag := rfl

@[simp] theorem emitDiag_pc : (emitDiag w op s).pc = s.pc := rfl
@[simp] theorem emitDiag_sp : (emitDiag w op s).sp = s.sp := rfl
@[simp] theorem emitDiag_acc : (emitDiag w op s).acc = s.acc := rfl
@[simp] theorem emitDiag_status : (emitDiag w op s).status = s.status := rfl
@[simp] theorem emitDiag_mem : (emitDiag w op s).mem = s.mem := rfl
@[simp] theorem emitDiag_diag : (emitDiag w op s).diag = s.diag ++ [⟨w, op⟩] := rfl

@[simp] theorem setStatus_pc : (setStatus st c s).pc = s.pc := rfl
@[simp] theorem setStatus_sp : (setStatus st c s).sp = s.sp := rfl
@[simp] theorem setStatus_acc : (setStatus st c s).acc = s.acc := rfl
@[simp] theorem setStatus_status : (setStatus st c s).status = statusWord st c := rfl
@[simp] theorem setStatus_mem : (setStatus st c s).mem = s.mem := rfl
@[simp] theorem setStatus_diag : (setStatus st c s).diag = s.diag := rfl

/-- The halt check writes STATE alone (R57). -/
theorem setRunState_eq : setRunState st s = setStatus st s.cause s := rfl

/-- Fault entry writes both fields of STATUS (R96). -/
theorem takeError_eq : takeError e s = setStatus .faulted e.code s := rfl

/-- RUN's first two assignments (R81). -/
theorem startRun_eq : startRun s = setStatus .running causeNone s := rfl

@[simp] theorem resetRegs_pc : (resetRegs s).pc = 0x0000#16 := rfl
@[simp] theorem resetRegs_sp : (resetRegs s).sp = 0x00FF#16 := rfl
@[simp] theorem resetRegs_acc : (resetRegs s).acc = 0x00#8 := rfl
@[simp] theorem resetRegs_status : (resetRegs s).status = 0x00#8 := rfl
@[simp] theorem resetRegs_mem : (resetRegs s).mem = s.mem := rfl
@[simp] theorem resetRegs_diag : (resetRegs s).diag = s.diag := rfl

/-- What an update that leaves memory alone reads: every byte as before. -/
theorem byteAt_congr (t : State) (h : t.mem = s.mem) : t.byteAt a = s.byteAt a := by
  simp only [State.byteAt, h]

@[simp] theorem byteAt_writePc : (writePc w s).byteAt a = s.byteAt a := rfl
@[simp] theorem byteAt_writeSp : (writeSp w s).byteAt a = s.byteAt a := rfl
@[simp] theorem byteAt_writeAcc : (writeAcc b s).byteAt a = s.byteAt a := rfl
@[simp] theorem byteAt_setStatus : (setStatus st c s).byteAt a = s.byteAt a := rfl
@[simp] theorem byteAt_emitDiag : (emitDiag w op s).byteAt a = s.byteAt a := rfl
@[simp] theorem byteAt_resetRegs : (resetRegs s).byteAt a = s.byteAt a := rfl

end Sys2Proof.Machine
end

