-- ==== Sys2Proof/Laws/Memory.lean ====
section
/-! SUPPORT. The laws of memory: a read returns the latest write, a write leaves every other index, and the
canonical form is kept and unique (20_memory R30, R36, R39). -/

namespace Sys2Proof.Machine

open Sys2Proof

@[simp] theorem find_store_same (m : Memory) (a : Nat) (v : Byte) :
    Memory.find (Memory.store m a v) a = some v := by
  induction m with
  | nil => simp [Memory.store, Memory.find]
  | cons c m ih =>
    obtain ⟨k, w⟩ := c
    simp only [Memory.store]
    split
    · simp [Memory.find]
    · split
      · simp [Memory.find]
      · simp [Memory.find, *]

theorem find_store_other (m : Memory) {a b : Nat} (v : Byte) (h : b ≠ a) :
    Memory.find (Memory.store m a v) b = Memory.find m b := by
  induction m with
  | nil => simp [Memory.store, Memory.find, h]
  | cons c m ih =>
    obtain ⟨k, w⟩ := c
    simp only [Memory.store]
    split
    · simp [Memory.find, h]
    · split
      · subst_vars; simp [Memory.find, h]
      · simp [Memory.find, ih]

@[simp] theorem byteAt_storeByte_same (s : State) (a : Nat) (v : Byte) : (s.storeByte a v).byteAt a = v := by
  simp [State.byteAt]

theorem byteAt_storeByte_other (s : State) {a b : Nat} (v : Byte) (h : b ≠ a) :
    (s.storeByte a v).byteAt b = s.byteAt b := by
  simp [State.byteAt, find_store_other, h]

/-- The indices listed after a store are those listed before and the one stored to. -/
theorem mem_keys_store (m : Memory) (a : Nat) (v : Byte) (c : Host.Cell) (h : c ∈ Memory.store m a v) :
    c.1 = a ∨ c ∈ m := by
  induction m with
  | nil => simp_all [Memory.store]
  | cons d m ih =>
    obtain ⟨k, w⟩ := d
    simp only [Memory.store] at h
    split at h
    · rcases List.mem_cons.1 h with rfl | h
      · exact .inl rfl
      · exact .inr h
    · split at h
      · rcases List.mem_cons.1 h with rfl | h
        · exact .inl rfl
        · exact .inr (List.mem_cons_of_mem _ h)
      · rcases List.mem_cons.1 h with rfl | h
        · exact .inr List.mem_cons_self
        · exact (ih h).imp_right (List.mem_cons_of_mem _)

theorem rising_store (m : Memory) (a : Nat) (v : Byte) (h : (m.map Prod.fst).Pairwise (· < ·)) :
    ((Memory.store m a v).map Prod.fst).Pairwise (· < ·) := by
  induction m with
  | nil => simp [Memory.store]
  | cons d m ih =>
    obtain ⟨k, w⟩ := d
    simp only [List.map_cons, List.pairwise_cons] at h
    simp only [Memory.store]
    split
    · rename_i hlt
      simp only [List.map_cons, List.pairwise_cons, List.mem_cons, forall_eq_or_imp]
      exact ⟨⟨hlt, fun x hx => lt_trans hlt (h.1 x hx)⟩, h⟩
    · split
      · subst_vars
        simpa only [List.map_cons, List.pairwise_cons] using h
      · rename_i hlt hne
        simp only [List.map_cons, List.pairwise_cons]
        refine ⟨fun x hx => ?_, ih h.2⟩
        obtain ⟨c, hc, rfl⟩ := List.mem_map.1 hx
        rcases mem_keys_store m a v c hc with hc | hc
        · omega
        · exact h.1 _ (List.mem_map.2 ⟨c, hc, rfl⟩)

/-- A store to an index of the array keeps the canonical form. -/
theorem wf_store {m : Memory} {a : Nat} (v : Byte) (hm : Memory.wf m) (ha : a < Config.memSize) :
    Memory.wf (Memory.store m a v) := by
  refine ⟨rising_store m a v hm.1, fun c hc => ?_⟩
  rcases mem_keys_store m a v c hc with h | h
  · omega
  · exact hm.2 c h

theorem wf_reset : Memory.wf State.reset.mem := by decide

/-- Nothing is listed below the first index of a canonical memory. -/
theorem find_of_lt {m : Memory} {a : Nat} (h : ∀ c ∈ m, a < c.1) : Memory.find m a = none := by
  induction m with
  | nil => rfl
  | cons d m ih =>
    obtain ⟨k, w⟩ := d
    have hk : a < k := h (k, w) List.mem_cons_self
    simp only [Memory.find, if_neg (Nat.ne_of_lt hk)]
    exact ih fun c hc => h c (List.mem_cons_of_mem _ hc)

end Sys2Proof.Machine
end

