-- ==== Sys2Proof/Laws/Status.lean ====
section
/-! SUPPORT. The STATUS register reads back the fields written to it (10_state R22). -/

namespace Sys2Proof.Machine

open Sys2Proof

@[simp] theorem statusWord_state (st : RunState) (c : BitVec 3) :
    RunState.ofCode ((statusWord st c).extractLsb' 0 2) = st := by
  revert c; cases st <;> decide

@[simp] theorem statusWord_cause (st : RunState) (c : BitVec 3) : (statusWord st c).extractLsb' 2 3 = c := by
  revert c; cases st <;> decide

@[simp] theorem statusWord_reserved (st : RunState) (c : BitVec 3) :
    (statusWord st c).extractLsb' 5 3 = 0#3 := by
  revert c; cases st <;> decide

@[simp] theorem runState_setStatus (s : State) (st : RunState) (c : BitVec 3) :
    (setStatus st c s).runState = st := statusWord_state st c

@[simp] theorem cause_setStatus (s : State) (st : RunState) (c : BitVec 3) :
    (setStatus st c s).cause = c := statusWord_cause st c

@[simp] theorem statusOut_setStatus (s : State) (st : RunState) (c : BitVec 3) :
    (setStatus st c s).statusOut = statusWord st c := by
  simp only [State.statusOut, setStatus_status]
  revert c; cases st <;> decide

/-- Reading STATUS takes it alone. -/
theorem runState_congr {s t : State} (h : t.status = s.status) : t.runState = s.runState := by
  simp only [State.runState, h]

/-- Reading CAUSE takes STATUS alone. -/
theorem cause_congr {s t : State} (h : t.status = s.status) : t.cause = s.cause := by
  simp only [State.cause, h]

/-- Reset leaves STATUS at IDLE/NONE (R109). -/
@[simp] theorem runState_resetRegs (s : State) : (resetRegs s).runState = .idle := rfl

@[simp] theorem cause_resetRegs (s : State) : (resetRegs s).cause = causeNone :=
  cause_setStatus _ _ _

/-- A legal STATUS is the word of its two fields (R22). -/
theorem status_of_fields (v : Byte) (h : v.extractLsb' 5 3 = 0#3) :
    v = statusWord (RunState.ofCode (v.extractLsb' 0 2)) (v.extractLsb' 2 3) := by
  revert v; decide

end Sys2Proof.Machine
end

