-- ==== Sys2Proof/Laws/Ops.lean ====
section
/-! SUPPORT. One spec lemma for each shared operation: everything it can do, said once. -/

namespace Sys2Proof.Machine

open Sys2Proof

theorem memSize_eq : Config.memSize = 256 := rfl

theorem toNat_sub_one {w : Word} (h : w ≠ 0#16) : (w - 1#16).toNat = w.toNat - 1 := by
  have : 0 < w.toNat := by
    rcases Nat.eq_zero_or_pos w.toNat with h0 | h0
    · exact absurd (BitVec.eq_of_toNat_eq (by simpa using h0)) h
    · exact h0
  have := w.isLt
  rw [BitVec.toNat_sub]; simp; omega

theorem toNat_add_one {w : Word} (h : w.toNat < 0xFFFF) : (w + 1#16).toNat = w.toNat + 1 := by
  rw [BitVec.toNat_add]; simp; omega

theorem memRead_inside {index : Word} {s : State} (h : index.toNat < 256) :
    memRead index s = .ok (s.byteAt index.toNat) s := by
  simp [memRead, memSize_eq, h]

theorem memWrite_inside {index : Word} {v : Byte} {s : State} (h : index.toNat < 256) :
    memWrite index v s = .ok () (s.storeByte index.toNat v) := by
  simp [memWrite, memSize_eq, h]

theorem memWrite_outside {index : Word} {v : Byte} {s : State} (h : 256 ≤ index.toNat) :
    memWrite index v s = .stopped (.memoryIndex index) := by
  simp [memWrite, memSize_eq, Nat.not_lt.2 h]

/-- A fetch inside the array (R55). -/
theorem fetch_inside {s : State} (h : s.pc.toNat < 256) :
    fetch s = .ok (s.byteAt s.pc.toNat) (writePc (s.pc + 1#16) s) := by
  simp [fetch, memSize_eq, Nat.not_le.2 h, memRead_inside h]

/-- A fetch past the array changes nothing (R55, R56). -/
theorem fetch_outside {s : State} (h : 256 ≤ s.pc.toNat) : fetch s = .raised .outOfBoundsFetch s := by
  simp [fetch, memSize_eq, h]

theorem stackEmpty_iff {s : State} : stackEmpty s = true ↔ 255 ≤ s.sp.toNat := by
  simp [stackEmpty, Config.spEmpty]

/-- A push with no slot below (R71). -/
theorem push_full {v : Byte} {s : State} (h : s.sp = 0#16) : push v s = .raised .stackOverflow s := by
  simp [push, h]

/-- A push inside the array (R71). -/
theorem push_inside {v : Byte} {s : State} (h0 : s.sp ≠ 0#16) (h1 : s.sp.toNat ≤ 256) :
    push v s = .ok () ((writeSp (s.sp - 1#16) s).storeByte (s.sp.toNat - 1) v) := by
  have e := toNat_sub_one h0
  simp only [push, if_neg h0, writeSp_sp]
  rw [memWrite_inside (by omega), e]

/-- A push from a state no run reaches stops (I12). -/
theorem push_outside {v : Byte} {s : State} (h : 256 < s.sp.toNat) :
    push v s = .stopped (.memoryIndex (s.sp - 1#16)) := by
  have h0 : s.sp ≠ 0#16 := by rintro e; simp [e] at h
  have e := toNat_sub_one h0
  simp only [push, if_neg h0, writeSp_sp]
  rw [memWrite_outside (by omega)]

/-- A pop of the empty stack (R72). -/
theorem pop_empty {s : State} (h : 255 ≤ s.sp.toNat) : pop s = .raised .stackUnderflow s := by
  simp [pop, stackEmpty_iff.2 h]

/-- A pop of a stack that holds something (R72). -/
theorem pop_nonempty {s : State} (h : s.sp.toNat < 255) :
    pop s = .ok (s.byteAt s.sp.toNat) (writeSp (s.sp + 1#16) s) := by
  have he : ¬ stackEmpty s = true := fun e => by have := stackEmpty_iff.1 e; omega
  simp [pop, he, memRead_inside (show s.sp.toNat < 256 by omega)]

theorem peek_empty {s : State} (h : 255 ≤ s.sp.toNat) : peek s = .raised .invalidStackAccess s := by
  simp [peek, stackEmpty_iff.2 h]

theorem peek_nonempty {s : State} (h : s.sp.toNat < 255) : peek s = .ok (s.byteAt s.sp.toNat) s := by
  have he : ¬ stackEmpty s = true := fun e => by have := stackEmpty_iff.1 e; omega
  simp [peek, he, memRead_inside (show s.sp.toNat < 256 by omega)]

theorem poke_empty {v : Byte} {s : State} (h : 255 ≤ s.sp.toNat) :
    poke v s = .raised .invalidStackAccess s := by
  simp [poke, stackEmpty_iff.2 h]

theorem poke_nonempty {v : Byte} {s : State} (h : s.sp.toNat < 255) :
    poke v s = .ok () (s.storeByte s.sp.toNat v) := by
  have he : ¬ stackEmpty s = true := fun e => by have := stackEmpty_iff.1 e; omega
  simp [poke, he, memWrite_inside (show s.sp.toNat < 256 by omega)]

/-- Everything a push can do (R71, I12). -/
theorem push_cases (v : Byte) (s : State) :
    (s.sp = 0#16 ∧ push v s = .raised .stackOverflow s) ∨
    (s.sp ≠ 0#16 ∧ s.sp.toNat ≤ 256 ∧
      push v s = .ok () ((writeSp (s.sp - 1#16) s).storeByte (s.sp.toNat - 1) v)) ∨
    (256 < s.sp.toNat ∧ push v s = .stopped (.memoryIndex (s.sp - 1#16))) := by
  by_cases h0 : s.sp = 0#16
  · exact .inl ⟨h0, push_full h0⟩
  · by_cases h1 : s.sp.toNat ≤ 256
    · exact .inr (.inl ⟨h0, h1, push_inside h0 h1⟩)
    · exact .inr (.inr ⟨by omega, push_outside (by omega)⟩)

/-- Everything a pop can do (R72). -/
theorem pop_cases (s : State) :
    (255 ≤ s.sp.toNat ∧ pop s = .raised .stackUnderflow s) ∨
    (s.sp.toNat < 255 ∧ pop s = .ok (s.byteAt s.sp.toNat) (writeSp (s.sp + 1#16) s)) := by
  by_cases h : 255 ≤ s.sp.toNat
  · exact .inl ⟨h, pop_empty h⟩
  · exact .inr ⟨by omega, pop_nonempty (by omega)⟩

@[simp] theorem complete_ok {α : Type} (v : α) (s : State) (k : α → State → State) :
    complete (.ok v s) k = .next (k v s) := rfl

@[simp] theorem complete_raised {α : Type} (e : ErrorKind) (s : State) (k : α → State → State) :
    complete (.raised e s) k = .next (takeError e s) := rfl

@[simp] theorem complete_stopped {α : Type} (f : Fault) (k : α → State → State) :
    complete (.stopped f) k = .fault f := rfl

end Sys2Proof.Machine
end

