-- ==== Sys2Proof/Laws/PerInstr.lean ====
section
/-! SUPPORT. Per-instruction families: one lemma for each constructor of Instr. -/

namespace Sys2Proof.Laws.RowEncoding

open Sys2Proof

/-- The byte of a well-formed instruction lies in the instruction's own row of the opcode map (R48, R50). -/
def Statement (i : Instr) : Prop := i.wf = true → i.row.covers (encode i) = true ∧ i.row ∈ opcodeMap

theorem halt : Statement .halt := fun _ => by decide
theorem incPush : Statement .incPush := fun _ => by decide
theorem popAcc : Statement .popAcc := fun _ => by decide
theorem dec : Statement .dec := fun _ => by decide
theorem unknown04 (op : Byte) : Statement (.unknown04 op) := fun h => ⟨h, by simp [Instr.row, opcodeMap]⟩
theorem unknown08 (op : Byte) : Statement (.unknown08 op) := fun h => ⟨h, by simp [Instr.row, opcodeMap]⟩
theorem unknown10 (op : Byte) : Statement (.unknown10 op) := fun h => ⟨h, by simp [Instr.row, opcodeMap]⟩
theorem unknown20 (op : Byte) : Statement (.unknown20 op) := fun h => ⟨h, by simp [Instr.row, opcodeMap]⟩
theorem unknown40 (op : Byte) : Statement (.unknown40 op) := fun h => ⟨h, by simp [Instr.row, opcodeMap]⟩
theorem unknown80 (op : Byte) : Statement (.unknown80 op) := fun h => ⟨h, by simp [Instr.row, opcodeMap]⟩

end Sys2Proof.Laws.RowEncoding
end

