-- ==== Sys2Proof/Laws/Step.lean ====
section
/-! SUPPORT. What a meaning and a step can answer, said once. -/

namespace Sys2Proof.Machine

open Sys2Proof

/-- The two ways a step of a RUNNING core begins (R55, R59). -/
theorem coreStep_inside {s : State} (h : s.pc.toNat < 256) :
    coreStep s = exec (decode (s.byteAt s.pc.toNat)) (writePc (s.pc + 1#16) s) := by
  simp [coreStep, fetch_inside h]

theorem coreStep_outside {s : State} (h : 256 ≤ s.pc.toNat) :
    coreStep s = .next (takeError .outOfBoundsFetch s) := by
  simp [coreStep, fetch_outside h]

theorem step_running {s : State} (h : s.runState = .running) : step s = coreStep s := by
  simp [step, runStep, h]

theorem step_not_running {s : State} (h : s.runState ≠ .running) : step s = .next s := by
  cases e : s.runState <;> simp_all [step, runStep]

/-- Everything a meaning can answer with a next state: one case for each way an instruction ends. -/
theorem exec_cases {i : Instr} {s t : State} (h : exec i s = .next t) :
    (i = .halt ∧ t = setRunState .halted s) ∨
    (i = .incPush ∧ s.sp = 0#16 ∧ t = takeError .stackOverflow (writeAcc (incByte s.acc) s)) ∨
    (i = .incPush ∧ s.sp ≠ 0#16 ∧ s.sp.toNat ≤ 256 ∧
      t = (writeSp (s.sp - 1#16) (writeAcc (incByte s.acc) s)).storeByte (s.sp.toNat - 1) (incByte s.acc)) ∨
    (i = .popAcc ∧ 255 ≤ s.sp.toNat ∧ t = takeError .stackUnderflow s) ∨
    (i = .popAcc ∧ s.sp.toNat < 255 ∧ t = writeAcc (s.byteAt s.sp.toNat) (writeSp (s.sp + 1#16) s)) ∨
    (i = .dec ∧ t = writeAcc (decByte s.acc) s) ∨
    ((i ≠ .halt ∧ i ≠ .incPush ∧ i ≠ .popAcc ∧ i ≠ .dec) ∧ t = unknownOpcode (encode i) s) := by
  cases i with
  | halt => left; simpa [exec, execHalt] using h.symm
  | incPush =>
    simp only [exec, execIncPush] at h
    rcases push_cases (writeAcc (incByte s.acc) s).acc (writeAcc (incByte s.acc) s) with
      ⟨h0, e⟩ | ⟨h0, h1, e⟩ | ⟨h1, e⟩
    · rw [e] at h
      exact .inr (.inl ⟨rfl, h0, by simpa using h.symm⟩)
    · rw [e] at h
      exact .inr (.inr (.inl ⟨rfl, h0, h1, by simpa using h.symm⟩))
    · rw [e] at h
      simp at h
  | popAcc =>
    simp only [exec, execPopAcc] at h
    rcases pop_cases s with ⟨h0, e⟩ | ⟨h0, e⟩
    · rw [e] at h
      exact .inr (.inr (.inr (.inl ⟨rfl, h0, by simpa using h.symm⟩)))
    · rw [e] at h
      exact .inr (.inr (.inr (.inr (.inl ⟨rfl, h0, by simpa using h.symm⟩))))
  | dec =>
    simp only [exec, execDec] at h
    exact .inr (.inr (.inr (.inr (.inr (.inl ⟨rfl, by simpa using h.symm⟩)))))
  | unknown04 op | unknown08 op | unknown10 op | unknown20 op | unknown40 op | unknown80 op =>
    simp only [exec, execUnknown04, execUnknown08, execUnknown10, execUnknown20, execUnknown40, execUnknown80] at h
    exact .inr (.inr (.inr (.inr (.inr (.inr ⟨by simp, by simpa [encode] using h.symm⟩)))))

/-- Everything a step can answer with a next state: no move, the fetch's error, or the meaning of the fetched
instruction. -/
theorem step_cases {s t : State} (h : step s = .next t) :
    (s.runState ≠ .running ∧ t = s) ∨
    (s.runState = .running ∧ 256 ≤ s.pc.toNat ∧ t = takeError .outOfBoundsFetch s) ∨
    (s.runState = .running ∧ s.pc.toNat < 256 ∧
      exec (decode (s.byteAt s.pc.toNat)) (writePc (s.pc + 1#16) s) = .next t) := by
  by_cases hr : s.runState = .running
  · rw [step_running hr] at h
    by_cases hp : 256 ≤ s.pc.toNat
    · rw [coreStep_outside hp] at h
      exact .inr (.inl ⟨hr, hp, by simpa using h.symm⟩)
    · rw [coreStep_inside (by omega)] at h
      exact .inr (.inr ⟨hr, by omega, h⟩)
  · rw [step_not_running hr] at h
    exact .inl ⟨hr, by simpa using h.symm⟩

/-- One turn of the run loop while RUNNING, by how its step ends (R63). -/
theorem runLoop_next {n : Nat} {s t : State} (h : s.runState = .running) (e : coreStep s = .next t) :
    runLoop (n + 1) s = runLoop n t := by
  simp only [runLoop, h, e]

theorem runLoop_fault {n : Nat} {s : State} {f : Fault} (h : s.runState = .running) (e : coreStep s = .fault f) :
    runLoop (n + 1) s = .fault f := by
  simp only [runLoop, h, e]

theorem runLoop_refused {n : Nat} {s : State} {r : Refusal} (h : s.runState = .running)
    (e : coreStep s = .refused r) : runLoop (n + 1) s = .refused r := by
  simp only [runLoop, h, e]

/-- An accepted host command has its effect (R78). -/
theorem hostCommand_accepted {c : HostCommand} {s : State} (h : hostAccepts c s = true) :
    hostCommand c s = hostEffect c s := by
  simp [hostCommand, h]

/-- A word always has a first byte, since the longest instruction has one (R46). -/
theorem bytesOfWord_cons (nbits w : Nat) : ∃ (b : Byte) (rest : List Byte), bytesOfWord nbits w = b :: rest := by
  have h : max 1 ((nbits + 7) / 8) = max 1 ((nbits + 7) / 8) - 1 + 1 := by omega
  rw [bytesOfWord, h]
  exact ⟨_, _, rfl⟩

/-- Everything placing a word does: its first byte is stored where the next fetch reads, and the run is started
(log entry 3). -/
theorem placeFetchWord_eq {nbits w : Nat} {b : Byte} {rest : List Byte} (s : State)
    (h : bytesOfWord nbits w = b :: rest) :
    placeFetchWord nbits w s =
      startRun ((if s.pc.toNat < Config.memSize then s else writePc Config.pcReset s).storeByte
        (if s.pc.toNat < Config.memSize then s else writePc Config.pcReset s).pc.toNat b) := by
  simp only [placeFetchWord, h]

/-- One step of the host's run of a machine, by how the step ends. -/
theorem core_run_next (M : Host.Core) {n : Nat} {s t : M.State} (h : M.step s = .next t) :
    M.run (n + 1) s = M.run n t := by
  rw [Host.Core.run, h]

theorem core_run_fault (M : Host.Core) {n : Nat} {s : M.State} {f : M.Fault} (h : M.step s = .fault f) :
    M.run (n + 1) s = .fault f := by
  rw [Host.Core.run, h]

theorem core_run_refused (M : Host.Core) {n : Nat} {s : M.State} {r : M.Refusal} (h : M.step s = .refused r) :
    M.run (n + 1) s = .refused r := by
  rw [Host.Core.run, h]

/-- A meaning stops only with the model fault of a push (I12). -/
theorem exec_not_next {i : Instr} {s : State} (h : ∀ t, exec i s ≠ .next t) :
    i = .incPush ∧ 256 < s.sp.toNat := by
  cases i with
  | incPush =>
    refine ⟨rfl, ?_⟩
    simp only [exec, execIncPush] at h
    rcases push_cases (writeAcc (incByte s.acc) s).acc (writeAcc (incByte s.acc) s) with
      ⟨h0, e⟩ | ⟨h0, h1, e⟩ | ⟨h1, e⟩
    · rw [e] at h; exact absurd rfl (h _)
    · rw [e] at h; exact absurd rfl (h _)
    · exact h1
  | popAcc =>
    simp only [exec, execPopAcc] at h
    rcases pop_cases s with ⟨h0, e⟩ | ⟨h0, e⟩ <;> rw [e] at h <;> exact absurd rfl (h _)
  | halt | dec => exact absurd rfl (h _)
  | unknown04 op | unknown08 op | unknown10 op | unknown20 op | unknown40 op | unknown80 op =>
    exact absurd rfl (h _)

end Sys2Proof.Machine
end

