-- ==== Sys2Proof/Tests/Slice0.lean ====
section
/-! SUPPORT. Small tests. Expected values come from spec/95_test_vectors.md (V-*, W*) and the encodings of
30_encoding R48 and R50; the witnesses show that the hypotheses of the statements can be met. -/

namespace Sys2Proof.Tests

open Sys2Proof Sys2Proof.Machine

/-- A small state with an empty trace. STATUS 0x01 is RUNNING/NONE (R22). -/
def mk (pc sp : Word) (acc status : Byte) (mem : Memory) : State := ⟨pc, sp, acc, status, mem, []⟩

/-- The next state of an outcome, if it is one. -/
def nextState (o : Host.Outcome State Fault Refusal) : Option State :=
  match o with
  | .next s => some s
  | .fault _ => none
  | .refused _ => none

/-- The response of a host command, if it has one. -/
def response (o : HostOutcome) : Option HostResponse :=
  match o with
  | .next (r, _) => some r
  | .fault _ => none
  | .refused _ => none

/-- The state after a host command, if there is one. -/
def stateAfter (o : HostOutcome) : Option State :=
  match o with
  | .next (_, s) => some s
  | .fault _ => none
  | .refused _ => none

/-- pc, sp, acc and the STATUS byte. -/
def regs (s : State) : Word × Word × Byte × Byte := (s.pc, s.sp, s.acc, s.statusOut)

/-- The byte written at an index. -/
def written (a : Nat) (s : State) : Option Byte := Memory.find s.mem a

/-! ### WellFormed: an ill-formed term for each check (R50) -/

theorem test_wf_unknown04_refuses_08 : (Instr.unknown04 0x08#8).wf = false := by decide
theorem test_wf_unknown08_refuses_07 : (Instr.unknown08 0x07#8).wf = false := by decide
theorem test_wf_unknown10_refuses_20 : (Instr.unknown10 0x20#8).wf = false := by decide
theorem test_wf_unknown20_refuses_1F : (Instr.unknown20 0x1F#8).wf = false := by decide
theorem test_wf_unknown40_refuses_80 : (Instr.unknown40 0x80#8).wf = false := by decide
theorem test_wf_unknown80_refuses_7F : (Instr.unknown80 0x7F#8).wf = false := by decide

/-! ### Decoding: words written out bit by bit from R48 and R50 -/

theorem test_decode_halt : decode 0b0000_0000#8 = .halt := by decide
theorem test_decode_incPush : decode 0b0000_0001#8 = .incPush := by decide
theorem test_decode_popAcc : decode 0b0000_0010#8 = .popAcc := by decide
theorem test_decode_dec : decode 0b0000_0011#8 = .dec := by decide
theorem test_decode_unknown04 : decode 0b0000_0111#8 = .unknown04 0x07#8 := by decide
theorem test_decode_unknown08 : decode 0b0000_1000#8 = .unknown08 0x08#8 := by decide
theorem test_decode_unknown10 : decode 0b0001_1111#8 = .unknown10 0x1F#8 := by decide
theorem test_decode_unknown20 : decode 0b0010_0000#8 = .unknown20 0x20#8 := by decide
theorem test_decode_unknown40 : decode 0b0111_1111#8 = .unknown40 0x7F#8 := by decide
theorem test_decode_unknown80 : decode 0b1000_0000#8 = .unknown80 0x80#8 := by decide
theorem test_decode_rejects_no_byte : (decodeBytes []).toOption = none := by decide
/-- Two rows differ in a bit that both fix, so no byte is in both (R50). -/
theorem test_rows_do_not_overlap :
    opcodeMap.Pairwise (fun r q => (r.value ^^^ q.value) &&& (r.mask &&& q.mask) ≠ 0#8) := by decide

/-! ### Steps: the derived vectors of 95_test_vectors.md, section 2 -/

/-- V-F1. -/
theorem test_halt_step : (nextState (step (mk 0x0000#16 0x00FF#16 0x05#8 0x01#8 [(0, 0x00#8)]))).map regs =
    some (0x0001#16, 0x00FF#16, 0x05#8, 0x02#8) := by decide
/-- V-F2. -/
theorem test_halt_at_last_index : (nextState (step (mk 0x00FF#16 0x00FF#16 0x00#8 0x01#8 [(255, 0x00#8)]))).map regs =
    some (0x0100#16, 0x00FF#16, 0x00#8, 0x02#8) := by decide
/-- V-F3: STATUS 0x13 is FAULTED/4. -/
theorem test_fetch_past_end : (nextState (step (mk 0x0100#16 0x00FF#16 0x07#8 0x01#8 []))).map regs =
    some (0x0100#16, 0x00FF#16, 0x07#8, 0x13#8) := by decide
/-- V-I2: the 8-bit wrap is pushed. -/
theorem test_incPush_wraps :
    (nextState (step (mk 0x0000#16 0x0080#16 0xFF#8 0x01#8 [(0, 0x01#8)]))).map (fun t => (regs t, written 0x7F t)) =
      some ((0x0001#16, 0x007F#16, 0x00#8, 0x01#8), some 0x00#8) := by decide
/-- V-I4: acc keeps the increment; STATUS 0x07 is FAULTED/1. -/
theorem test_incPush_overflow :
    (nextState (step (mk 0x0005#16 0x0000#16 0x10#8 0x01#8 [(5, 0x01#8)]))).map (fun t => (regs t, t.mem)) =
      some ((0x0006#16, 0x0000#16, 0x11#8, 0x07#8), [(5, 0x01#8)]) := by decide
/-- V-P1. -/
theorem test_popAcc_last : (nextState (step (mk 0x0000#16 0x00FE#16 0x07#8 0x01#8 [(0, 0x02#8), (254, 0x42#8)]))).map regs =
    some (0x0001#16, 0x00FF#16, 0x42#8, 0x01#8) := by decide
/-- V-P2: STATUS 0x0B is FAULTED/2. -/
theorem test_popAcc_underflow : (nextState (step (mk 0x0000#16 0x00FF#16 0x07#8 0x01#8 [(0, 0x02#8)]))).map regs =
    some (0x0001#16, 0x00FF#16, 0x07#8, 0x0B#8) := by decide
/-- V-D2: the wrap, with sp = 0 and no push. -/
theorem test_dec_wraps :
    (nextState (step (mk 0x0000#16 0x0000#16 0x00#8 0x01#8 [(0, 0x03#8)]))).map (fun t => (regs t, t.mem)) =
      some ((0x0001#16, 0x0000#16, 0xFF#8, 0x01#8), [(0, 0x03#8)]) := by decide
/-- V-D3. -/
theorem test_dec_unsigned : (nextState (step (mk 0x0000#16 0x00FF#16 0x80#8 0x01#8 [(0, 0x03#8)]))).map regs =
    some (0x0001#16, 0x00FF#16, 0x7F#8, 0x01#8) := by decide
/-- V-U1. -/
theorem test_unknown04_diag :
    (nextState (step (mk 0x0000#16 0x00FF#16 0x00#8 0x01#8 [(0, 0x04#8)]))).map (fun t => (regs t, t.diag)) =
      some ((0x0001#16, 0x00FF#16, 0x00#8, 0x01#8), [⟨0x0000#16, 0x04#8⟩]) := by decide
/-- The first byte of the row 00001xxx (R50, R69). -/
theorem test_unknown08_diag :
    (nextState (step (mk 0x0001#16 0x00FF#16 0x00#8 0x01#8 [(1, 0x08#8)]))).map (fun t => (t.pc, t.diag)) =
      some (0x0002#16, [⟨0x0001#16, 0x08#8⟩]) := by decide
/-- The last byte of the row 0001xxxx (R50, R69). -/
theorem test_unknown10_diag :
    (nextState (step (mk 0x0001#16 0x00FF#16 0x00#8 0x01#8 [(1, 0x1F#8)]))).map (fun t => (t.pc, t.diag)) =
      some (0x0002#16, [⟨0x0001#16, 0x1F#8⟩]) := by decide
/-- The first byte of the row 001xxxxx (R50, R69). -/
theorem test_unknown20_diag :
    (nextState (step (mk 0x0001#16 0x00FF#16 0x00#8 0x01#8 [(1, 0x20#8)]))).map (fun t => (t.pc, t.diag)) =
      some (0x0002#16, [⟨0x0001#16, 0x20#8⟩]) := by decide
/-- V-U4. -/
theorem test_unknown40_diag :
    (nextState (step (mk 0x00FF#16 0x00FF#16 0x00#8 0x01#8 [(255, 0x7F#8)]))).map (fun t => (t.pc, t.diag)) =
      some (0x0100#16, [⟨0x00FF#16, 0x7F#8⟩]) := by decide
/-- V-U3. -/
theorem test_unknown80_diag :
    (nextState (step (mk 0x0020#16 0x00FF#16 0x00#8 0x01#8 [(32, 0x80#8)]))).map (fun t => (t.pc, t.diag)) =
      some (0x0021#16, [⟨0x0020#16, 0x80#8⟩]) := by decide

/-! ### Host commands: V-S*, V-R*, W7b, and the assembler's example of R52 -/

/-- V-S3 and V-S4. -/
theorem test_host_empty_stack :
    (response (hostCommand .pop State.reset), response (hostCommand .peek State.reset),
      response (hostCommand (.poke 0x01#8) State.reset)) =
    (some (.err 2#3), some (.err 3#3), some (.err 3#3)) := by decide
/-- W7b, its first half. -/
theorem test_host_push_peek : (stateAfter (hostCommand (.push 0x11#8) State.reset)).map
    (fun t => (t.sp, response (hostCommand .peek t))) = some (0x00FE#16, some (.okByte 0x11#8)) := by decide
/-- V-R1. -/
theorem test_host_reset : (stateAfter (hostCommand .reset (mk 0x0037#16 0x0010#16 0x99#8 0x07#8 [(3, 0x05#8)]))).map
    (fun t => (regs t, t.mem)) = some ((0x0000#16, 0x00FF#16, 0x00#8, 0x00#8), [(3, 0x05#8)]) := by decide
/-- V-R3. -/
theorem test_host_read_regs : response (hostCommand .readRegs (mk 0x0004#16 0x00FC#16 0x03#8 0x02#8 [])) =
    some (.okRegs 0x0004#16 0x00FC#16 0x03#8 0x02#8) := by decide
/-- P8, its first RUN: one step, ERR(2). -/
theorem test_host_run_underflow :
    let o := hostCommand .run (mk 0x0000#16 0x00FF#16 0x00#8 0x00#8 [(0, 0x02#8), (1, 0x00#8)])
    (response o, (stateAfter o).map regs) =
      (some (.err 2#3), some (0x0001#16, 0x00FF#16, 0x00#8, 0x0B#8)) := by decide
/-- P8, its second RUN: it resumes at pc and finds HALT. -/
theorem test_host_run_resumes :
    let o := hostCommand .run (mk 0x0001#16 0x00FF#16 0x00#8 0x0B#8 [(0, 0x02#8), (1, 0x00#8)])
    (response o, (stateAfter o).map regs) =
      (some .ok, some (0x0002#16, 0x00FF#16, 0x00#8, 0x02#8)) := by decide
/-- R52: a mnemonic with a comment, a raw byte, and a line that is only a comment. -/
theorem test_assemble :
    (assembleText [['I', 'N', 'C', '_', 'P', 'U', 'S', 'H', ' ', ';', ' ', 'x'],
      ['.', 'b', 'y', 't', 'e', ' ', '0', 'x', 'F', '4'], [';'], ['H', 'A', 'L', 'T']]).toOption =
    some [0x01#8, 0xF4#8, 0x00#8] := by decide
/-- R52: no instruction takes an operand. -/
theorem test_assemble_refuses_operand : (assembleText [['D', 'E', 'C', ' ', '1']]).toOption = none := by decide

/-- The first instruction after reset, placed by the host (log entry 3). -/
theorem test_first_instruction_after_reset :
    (nextState (step (State.reset.withFetchWord 8 0x01))).map (fun t => (regs t, written 0xFE t)) =
      some ((0x0001#16, 0x00FE#16, 0x01#8, 0x01#8), some 0x01#8) := by decide

/-! ### Witnesses: states and operands that meet the hypotheses of the statements, at the boundaries of their ranges -/

theorem witness_DecodeOfEncode : (Instr.unknown80 0xFF#8).wf = true ∧ (Instr.unknown04 0x04#8).wf = true ∧
    Instr.incPush.wf = true := by decide
theorem witness_DecoderClassOfEveryByte : 4 ≤ (0x04#8 : Byte).toNat ∧ 4 ≤ (0xFF#8 : Byte).toNat := by decide

/-- A RUNNING core with HALT under pc, at the last index. -/
theorem witness_HaltStepOnlyAdvancesPcAndWritesStatus :
    let s := mk 0x00FF#16 0x00FF#16 0x00#8 0x01#8 [(255, 0x00#8)]
    s.runState = .running ∧ s.pc.toNat < 256 ∧ s.byteAt s.pc.toNat = 0x00#8 := by decide

/-- The smallest and the largest sp at which a push completes. -/
theorem witness_IncPushCompletes :
    let lo := mk 0x0001#16 0x0001#16 0x00#8 0x01#8 []
    let hi := mk 0x0001#16 0x0100#16 0x00#8 0x01#8 []
    (lo.sp ≠ 0#16 ∧ lo.sp.toNat ≤ 0x0100) ∧ (hi.sp ≠ 0#16 ∧ hi.sp.toNat ≤ 0x0100) := by decide
theorem witness_IncPushOverflowTakesError : (mk 0x0001#16 0x0000#16 0xFF#8 0x01#8 []).sp = 0#16 := by decide
theorem witness_IncPushOutsideMemoryStops : 0x0100 < (mk 0x0001#16 0x0101#16 0x00#8 0x01#8 []).sp.toNat := by decide
theorem witness_PopAccCompletes : (mk 0x0001#16 0x00FE#16 0x00#8 0x01#8 [(254, 0x42#8)]).sp.toNat < 0x00FF ∧
    (mk 0x0001#16 0x0000#16 0x00#8 0x01#8 []).sp.toNat < 0x00FF := by decide
theorem witness_PopAccUnderflowTakesError : 0x00FF ≤ (mk 0x0001#16 0x00FF#16 0x00#8 0x01#8 []).sp.toNat := by decide
theorem witness_DecCompletes :
    let s := mk 0x00FF#16 0x0000#16 0x00#8 0x01#8 [(255, 0x03#8)]
    s.runState = .running ∧ s.pc.toNat < 256 ∧ s.byteAt s.pc.toNat = 0x03#8 := by decide
theorem witness_UnknownOpcodesComplete : 4 ≤ (0x04#8 : Byte).toNat := by decide
theorem witness_UnknownOpcodesNeverTrap :
    let s := mk 0x00FF#16 0x00FF#16 0x00#8 0x01#8 [(255, 0x04#8)]
    s.runState = .running ∧ s.pc.toNat < 256 ∧ 4 ≤ (s.byteAt s.pc.toNat).toNat := by decide

/-- Each clause of the frame: HALT, POP_ACC on both sides of the bound, DEC and an UNKNOWN row all answer. -/
theorem witness_NonStoringInstructionsFrame :
    (nextState (exec .halt (mk 1 0 5 1 []))).isSome = true ∧
    (nextState (exec .popAcc (mk 1 0x00FE 5 1 [(254, 7)]))).isSome = true ∧
    (nextState (exec .popAcc (mk 1 0x00FF 5 1 []))).isSome = true ∧
    (nextState (exec .dec (mk 1 0 5 1 []))).isSome = true ∧
    (nextState (exec (.unknown40 0x40#8) (mk 1 0 5 1 []))).isSome = true := by decide
theorem witness_IncPushFrame :
    (nextState (exec .incPush (mk 1 0 5 1 []))).isSome = true ∧
    (nextState (exec .incPush (mk 1 1 5 1 []))).isSome = true := by decide

/-- The three clauses of push: the guard, both ends of the range, and pushes counted from sp = 0xFF. -/
theorem witness_PushGuardsDecrementsAndWrites :
    (mk 0 0 0 0 []).sp = 0#16 ∧ ((mk 0 1 0 0 []).sp ≠ 0#16 ∧ (mk 0 0x0100 0 0 []).sp.toNat ≤ 0x0100) ∧
    (State.reset.sp = 0x00FF#16 ∧ (List.replicate 254 (0x07#8 : Byte)).length < 255) :=
  ⟨by decide, by decide, by decide, by rw [List.length_replicate]; omega⟩
theorem witness_PopGuardsReadsAndIncrements :
    0x00FF ≤ (mk 0 0x00FF 0 0 []).sp.toNat ∧ (mk 0 0x00FE 0 0 []).sp.toNat < 0x00FF := by decide
theorem witness_PeekAndPokeTouchTheTopByte :
    0x00FF ≤ (mk 0 0x00FF 0 0 []).sp.toNat ∧ (mk 0 0x00FE 0 0 []).sp.toNat < 0x00FF := by decide
theorem witness_PushThenPopRestores :
    (1 ≤ (mk 0 1 0 0 []).sp.toNat ∧ (mk 0 1 0 0 []).sp.toNat ≤ 0x00FF) ∧
    (1 ≤ State.reset.sp.toNat ∧ State.reset.sp.toNat ≤ 0x00FF) ∧ (mk 0 0 0 0 []).sp = 0#16 := by decide
theorem witness_StackHoldsExactly255Bytes :
    State.reset.sp = 0x00FF#16 ∧ (List.replicate 255 (0x01#8 : Byte)).length = 255 ∧
    (List.replicate 255 (0x01#8 : Byte))[254]? = some 0x01#8 :=
  ⟨by decide, List.length_replicate, List.getElem?_replicate_of_lt (by omega)⟩

/-- Each operation succeeds from an sp in range, push at the very bound. -/
theorem witness_StackNeverTouchesSentinel :
    let e := mk 0 0x00FF 0 0 []
    let s := mk 0 0x00FE 0 0 [(254, 0x09#8)]
    (e.sp.toNat ≤ 0x00FF ∧ push 0x01#8 e = .ok () (mk 0 0x00FE 0 0 [(254, 0x01#8)])) ∧
    (s.sp.toNat ≤ 0x00FF ∧ poke 0x01#8 s = .ok () (mk 0 0x00FE 0 0 [(254, 0x01#8)]) ∧
      pop s = .ok 0x09#8 (mk 0 0x00FF 0 0 [(254, 0x09#8)]) ∧ peek s = .ok 0x09#8 s) := by decide
theorem witness_PushIgnoresWhatItOverwrites :
    1 ≤ (mk 0 1 0 0 []).sp.toNat ∧ State.reset.sp.toNat ≤ 0x00FF := by decide
theorem witness_FetchReadsThenIncrements :
    256 ≤ (mk 0x0100 0 0 1 []).pc.toNat ∧ (mk 0x00FF 0 0 1 []).pc.toNat < 256 := by decide
theorem witness_StepRunsTheDecodedInstruction :
    let s := mk 0x00FF#16 0x00FF#16 0x00#8 0x01#8 [(255, 0x03#8)]
    s.runState = .running ∧ s.pc.toNat < 256 ∧ decode (s.byteAt s.pc.toNat) = .dec := by decide
theorem witness_StepPastTheEndTakesError :
    let s := mk 0x0100#16 0x00FF#16 0x00#8 0x01#8 []
    s.runState = .running ∧ 256 ≤ s.pc.toNat := by decide
theorem witness_StoppedCoreKeepsItsState :
    State.reset.runState ≠ .running ∧ (mk 1 0x00FF 0 0x02 []).runState ≠ .running ∧
    (mk 1 0x00FF 0 0x0B []).runState ≠ .running := by decide
theorem witness_EveryStepAdvancesPcByOne :
    let s := mk 0x00FF#16 0x00FF#16 0x00#8 0x01#8 [(255, 0x03#8)]
    let e := mk 0x0100#16 0x00FF#16 0x00#8 0x01#8 []
    (s.runState = .running ∧ (nextState (step s)).isSome = true ∧ s.pc.toNat < 256) ∧
    (e.runState = .running ∧ (nextState (step e)).isSome = true ∧ 256 ≤ e.pc.toNat) := by decide

/-- V-I6: INC_PUSH at index 4 with sp = 6 stores over index 5. -/
theorem witness_FetchSeesThePushedByte :
    let s := mk 0x0004#16 0x0006#16 0x00#8 0x01#8 [(4, 0x01#8), (5, 0x03#8)]
    s.runState = .running ∧ s.pc.toNat < 255 ∧ s.byteAt s.pc.toNat = 0x01#8 ∧
    s.sp.toNat = s.pc.toNat + 2 := by decide
theorem witness_StepChangesStateOnlyByHaltOrError :
    let s := mk 0x0000#16 0x00FF#16 0x00#8 0x01#8 [(0, 0x00#8)]
    (nextState (step s)).map (fun t => decide (t.runState ≠ s.runState)) = some true := by decide

/-- Each of the three errors is met by a step. -/
theorem witness_StepErrorsExactlyOnTheirConditions :
    let o := mk 0x0000#16 0x0000#16 0x00#8 0x01#8 [(0, 0x01#8)]
    let u := mk 0x00FF#16 0x00FF#16 0x00#8 0x01#8 [(255, 0x02#8)]
    let f := mk 0x0100#16 0x00FF#16 0x00#8 0x01#8 []
    (o.runState = .running ∧ (nextState (step o)).isSome = true ∧ o.byteAt 0 = 0x01#8 ∧ o.sp = 0#16) ∧
    (u.runState = .running ∧ (nextState (step u)).isSome = true ∧ u.byteAt 255 = 0x02#8 ∧ 0x00FF ≤ u.sp.toNat) ∧
    (f.runState = .running ∧ (nextState (step f)).isSome = true ∧ 256 ≤ f.pc.toNat) := by decide

/-- A step that changes a byte of memory, sp and acc. -/
theorem witness_StepsWriteOnlyWhatTheMatrixAllows :
    let s := mk 0x0000#16 0x00FF#16 0x00#8 0x01#8 [(0, 0x01#8), (254, 0x09#8)]
    (nextState (step s)).map (fun t =>
      decide (t.byteAt 254 ≠ s.byteAt 254) && decide (t.sp ≠ s.sp) && decide (t.acc ≠ s.acc)) = some true := by decide
theorem witness_ResetIgnoresPriorState :
    (mk 0x0001 0x00FE 0x01 0x02 []).mem = (mk 0x0037 0x0010 0x99 0x07 []).mem ∧
    (mk 0x0001 0x00FE 0x01 0x02 []).runState ≠ .running ∧ (mk 0x0037 0x0010 0x99 0x07 []).runState ≠ .running ∧ State.reset.runState ≠ .running ∧
    (mk 0 0x00FF 0 0x01 []).runState = .running := by decide
theorem witness_NewInitialisesInEveryState : State.reset.runState ≠ .running := by decide

/-- A state whose parts are in range is legal. -/
theorem legal_mk (pc sp : Word) (acc status : Byte) (m : Memory) (hp : pc.toNat ≤ 0x0100) (hs : sp.toNat ≤ 0x00FF)
    (hst : StatusLegal (mk pc sp acc status m)) (hm : Memory.wf m) : (mk pc sp acc status m).Legal :=
  ⟨hp, hs, hst, hm⟩

/-- RUNNING/NONE, HALTED/NONE and FAULTED/4 are legal. -/
theorem statusLegal_mk (pc sp : Word) (acc : Byte) (m : Memory) :
    StatusLegal (mk pc sp acc 0x01#8 m) ∧ StatusLegal (mk pc sp acc 0x02#8 m) ∧ StatusLegal (mk pc sp acc 0x13#8 m) := by
  simp only [StatusLegal, State.runState, State.cause, mk]
  decide

theorem witness_StepKeepsStatesLegal :
    let s := mk 0x0100#16 0x00FF#16 0x00#8 0x01#8 [(255, 0x03#8)]
    s.Legal ∧ (nextState (step s)).isSome = true :=
  ⟨legal_mk _ _ _ _ _ (by decide) (by decide) (statusLegal_mk _ _ _ _).1 (by decide), by decide⟩
theorem witness_HostCommandKeepsStatesLegal :
    let s := mk 0x0100#16 0x00FF#16 0x00#8 0x13#8 []
    s.Legal ∧ (stateAfter (hostCommand (.push 0xAA#8) s)).isSome = true :=
  ⟨legal_mk _ _ _ _ _ (by decide) (by decide) (statusLegal_mk _ _ _ _).2.2 (by decide), by decide⟩
theorem witness_LegalStatesNeverStop :
    let s := mk 0x0004#16 0x00FC#16 0x03#8 0x02#8 [(255, 0x00#8)]
    s.Legal ∧ hostAccepts .run s = true :=
  ⟨legal_mk _ _ _ _ _ (by decide) (by decide) (statusLegal_mk _ _ _ _).2.1 (by decide), by decide⟩
theorem witness_EveryRunEndsWithinItsBound :
    let s := mk 0x0100#16 0x0000#16 0x00#8 0x01#8 [(0, 0x01#8)]
    s.Legal ∧ s.runState = .running :=
  ⟨legal_mk _ _ _ _ _ (by decide) (by decide) (statusLegal_mk _ _ _ _).1 (by decide), by decide⟩
theorem witness_RunStartsAtPcAndAnswersHowItEnded :
    let s := mk 0x0004#16 0x00FC#16 0x03#8 0x02#8 [(4, 0x00#8)]
    s.Legal ∧ s.runState ≠ .running :=
  ⟨legal_mk _ _ _ _ _ (by decide) (by decide) (statusLegal_mk _ _ _ _).2.1 (by decide), by decide⟩
theorem witness_DiagnosticsInfluenceNothing :
    let s := mk 0x0000#16 0x00FF#16 0x00#8 0x01#8 [(0, 0x04#8)]
    let h := mk 0x0000#16 0x00FF#16 0x00#8 0x00#8 [(0, 0x04#8), (1, 0x00#8)]
    (SameButDiag s { s with diag := [⟨0x0007#16, 0x80#8⟩] } ∧ (nextState (step s)).isSome = true) ∧
    (SameButDiag h { h with diag := [⟨0x0007#16, 0x80#8⟩] } ∧ response (hostCommand .run h) = some .ok) :=
  ⟨⟨⟨rfl, rfl, rfl, rfl, rfl⟩, by decide⟩, ⟨⟨rfl, rfl, rfl, rfl, rfl⟩, by decide⟩⟩
theorem witness_HostStackCommandsAnswer :
    let full := mk 0 0 0 0 []
    let empty := mk 0 0x00FF 0 0 []
    let one := mk 0 0x00FE 0 0 [(254, 0x05#8)]
    (full.runState ≠ .running ∧ full.sp = 0#16) ∧
    (empty.runState ≠ .running ∧ empty.sp ≠ 0#16 ∧ empty.sp.toNat ≤ 0x00FF ∧ 0x00FF ≤ empty.sp.toNat) ∧
    (one.runState ≠ .running ∧ one.sp.toNat < 0x00FF) := by decide
theorem witness_HostMemoryCommandsReachEveryIndex :
    State.reset.runState ≠ .running ∧ (List.replicate 256 (0x03#8 : Byte)).length ≤ 256 ∧
    (List.replicate 256 (0x03#8 : Byte))[255]? = some 0x03#8 :=
  ⟨by decide, List.length_replicate.le, List.getElem?_replicate_of_lt (by omega)⟩
theorem witness_HostWritesAreFetchedByTheRun :
    State.reset.runState ≠ .running ∧ State.reset.pc.toNat = (0x00#8 : Byte).toNat := by decide
theorem witness_ReadRegsReturnsTheRegisters : State.reset.runState ≠ .running := by decide
theorem witness_HostMovesOnlyBetweenRuns :
    (mk 0 0x00FF 0 0x01 []).runState = .running ∧ HostCommand.reset ≠ .new ∧ State.reset.runState ≠ .running := by decide
theorem witness_MemoryReadsReturnTheLatestWrite : (0x00FF#16 : Word).toNat < 256 ∧ (0x0000#16 : Word).toNat < 256 := by
  decide
theorem witness_CanonicalMemoriesWithEqualBytesAreEqual :
    let m : Memory := [(0, 0x01#8), (255, 0x02#8)]
    Memory.wf m ∧ ∀ a : Nat, Memory.find m a = Memory.find (Memory.store [(255, 0x02#8)] 0 0x01#8) a :=
  ⟨by decide, fun _ => rfl⟩
/-- Words that decode, with pc at both ends of the array and just past it. -/
theorem witness_PlacedWordRunsNext :
    decodeTableWord 8 0x03 = some .dec ∧ decodeTableWord 8 0xFF = some (.unknown80 0xFF#8) ∧
    State.reset.pc.toNat < 256 ∧ (mk 0x00FF 0x00FF 0 0x02 []).pc.toNat < 256 ∧
    256 ≤ (mk 0x0100 0x00FF 0 0x02 []).pc.toNat := by decide

/-- At pc = 0x0100 the placed word runs from index 0 (log entry 3). -/
theorem test_placed_word_past_the_end :
    (nextState (step ((mk 0x0100 0x00FF 0x05 0x02 [(0, 0x01), (255, 0x00)]).withFetchWord 8 0x03))).map
      (fun t => (regs t, t.mem)) =
    some ((0x0001#16, 0x00FF#16, 0x04#8, 0x01#8), [(0, 0x03#8), (255, 0x00#8)]) := by decide

end Sys2Proof.Tests
end

section
/-! PROOFS. Scope (00_scope R11): the model stops on no path from a state whose sp is in range, and stops on a push from
above 0x0100. -/

namespace Sys2Proof.Machine

open Sys2Proof

/-! ### The core answers while sp is in range (R18) -/

theorem exec_next_of_sp_le {s : State} (i : Instr) (hsp : s.sp.toNat ≤ 0x00FF) : ∃ t, exec i s = .next t := by
  by_contra hstop
  obtain ⟨-, hout⟩ := exec_not_next (not_exists.1 hstop)
  omega

theorem coreStep_next_of_sp_le {s : State} (hsp : s.sp.toNat ≤ 0x00FF) : ∃ t, coreStep s = .next t := by
  rcases Nat.lt_or_ge s.pc.toNat 256 with hpc | hpc
  · rw [coreStep_inside hpc]
    exact exec_next_of_sp_le _ hsp
  · exact ⟨_, coreStep_outside hpc⟩

theorem step_next_of_sp_le {s : State} (hsp : s.sp.toNat ≤ 0x00FF) : ∃ t, step s = .next t := by
  by_cases hrun : s.runState = .running
  · rw [step_running hrun]
    exact coreStep_next_of_sp_le hsp
  · exact ⟨s, step_not_running hrun⟩

/-! ### A run answers, because each of its steps keeps sp in range -/

theorem exec_keeps_sp_le {i : Instr} {s t : State} (hsp : s.sp.toNat ≤ 0x00FF) (h : exec i s = .next t) :
    t.sp.toNat ≤ 0x00FF := by
  obtain ⟨-, rfl⟩ | ⟨-, -, rfl⟩ | ⟨-, hne, -, rfl⟩ | ⟨-, -, rfl⟩ | ⟨-, hlt, rfl⟩ | ⟨-, rfl⟩ | ⟨-, rfl⟩ := exec_cases h
  · exact hsp
  · exact hsp
  · simp only [storeByte_sp, writeSp_sp, toNat_sub_one hne]
    omega
  · exact hsp
  · simp only [writeAcc_sp, writeSp_sp, toNat_add_one (show s.sp.toNat < 0xFFFF by omega)]
    omega
  · exact hsp
  · exact hsp

theorem step_keeps_sp_le {s t : State} (hsp : s.sp.toNat ≤ 0x00FF) (h : step s = .next t) : t.sp.toNat ≤ 0x00FF := by
  rcases step_cases h with ⟨-, rfl⟩ | ⟨-, -, rfl⟩ | ⟨-, -, hexec⟩
  · exact hsp
  · exact hsp
  · exact exec_keeps_sp_le (s := writePc (s.pc + 1#16) s) hsp hexec

theorem runLoop_not_running {s : State} (n : Nat) (h : s.runState ≠ .running) : runLoop n s = .next s := by
  cases n with
  | zero => rfl
  | succ n => cases e : s.runState <;> simp_all [runLoop]

theorem runLoop_next_of_sp_le (n : Nat) {s : State} (hsp : s.sp.toNat ≤ 0x00FF) : ∃ t, runLoop n s = .next t := by
  induction n generalizing s with
  | zero => exact ⟨s, rfl⟩
  | succ n ih =>
    by_cases hrun : s.runState = .running
    · obtain ⟨u, hu⟩ := coreStep_next_of_sp_le hsp
      rw [runLoop_next hrun hu]
      exact ih (step_keeps_sp_le hsp ((step_running hrun).trans hu))
    · exact ⟨s, runLoop_not_running _ hrun⟩

/-! ### The host gets a response (R78): a stack command does unless its micro-operation stops -/

theorem push_ne_stopped {s : State} (v : Byte) (f : Fault) (hsp : s.sp.toNat ≤ 0x00FF) : push v s ≠ .stopped f := by
  rcases push_cases v s with ⟨-, e⟩ | ⟨-, -, e⟩ | ⟨hout, -⟩
  · simp [e]
  · simp [e]
  · omega

theorem pop_ne_stopped (s : State) (f : Fault) : pop s ≠ .stopped f := by
  rcases pop_cases s with ⟨-, e⟩ | ⟨-, e⟩ <;> simp [e]

theorem peek_ne_stopped (s : State) (f : Fault) : peek s ≠ .stopped f := by
  rcases Nat.lt_or_ge s.sp.toNat 255 with h | h
  · simp [peek_nonempty h]
  · simp [peek_empty h]

theorem poke_ne_stopped (v : Byte) (s : State) (f : Fault) : poke v s ≠ .stopped f := by
  rcases Nat.lt_or_ge s.sp.toNat 255 with h | h
  · simp [poke_nonempty h]
  · simp [poke_empty h]

theorem respondStack_next {α : Type} (answer : α → HostResponse) {r : Result α} (h : ∀ f, r ≠ .stopped f) :
    ∃ a t, respondStack answer r = .next (a, t) := by
  cases r with
  | ok v t => exact ⟨answer v, t, rfl⟩
  | raised e t => exact ⟨.err e.code, t, rfl⟩
  | stopped f => exact absurd rfl (h f)

theorem hostRun_next_of_sp_le {s : State} (hsp : s.sp.toNat ≤ 0x00FF) : ∃ a t, hostRun s = .next (a, t) := by
  obtain ⟨t, ht⟩ := runLoop_next_of_sp_le runBound (s := startRun s) hsp
  exact ⟨respondRun t, t, by simp only [hostRun, ht]⟩

theorem hostEffect_next_of_sp_le {s : State} (c : HostCommand) (hsp : s.sp.toNat ≤ 0x00FF) :
    ∃ a t, hostEffect c s = .next (a, t) := by
  cases c with
  | run => exact hostRun_next_of_sp_le hsp
  | push v => exact respondStack_next _ fun f => push_ne_stopped v f hsp
  | pop => exact respondStack_next _ (pop_ne_stopped s)
  | peek => exact respondStack_next _ (peek_ne_stopped s)
  | poke v => exact respondStack_next _ (poke_ne_stopped v s)
  | new | reset | readRegs | memWrite a v | memRead a => exact ⟨_, _, rfl⟩

/-- Settles O42: of a legal state only its bound on sp (R18) is needed, and every step of a run keeps it. -/
theorem legalStatesNeverStop : Obligations.LegalStatesNeverStop := by
  intro s hs
  refine ⟨step_next_of_sp_le hs.sp_le, fun c hc => ?_⟩
  rw [hostCommand_accepted hc]
  exact hostEffect_next_of_sp_le c hs.sp_le

/-- Settles O11: incrementing acc leaves sp, so the push stores outside the array (`push_outside`). -/
theorem incPushOutsideMemoryStops : Obligations.IncPushOutsideMemoryStops := by
  intro s hsp
  have hpush := push_outside (v := incByte s.acc) (s := writeAcc (incByte s.acc) s) hsp
  simp only [exec, execIncPush, writeAcc_acc, hpush, complete_stopped, writeAcc_sp]

end Sys2Proof.Machine
end

section
/-! PROOFS. The state (10_state): the legal states are closed under steps and host commands (R18, R22, R24, R29, R30), each
instruction changes what the access matrix allows and nothing else (R28), STATE moves as R23 says, STATUS reads out in the
layout of R22, and the canonical form of memory is unique. -/

namespace Sys2Proof.Machine

open Sys2Proof

/-! ### A legal STATUS (R22, R24) -/

theorem statusLegal_congr {s t : State} (h : t.status = s.status) (hs : StatusLegal s) : StatusLegal t := by
  simpa only [StatusLegal, runState_congr h, cause_congr h, h] using hs

theorem statusLegal_setStatus_none {st : RunState} (hst : st ≠ .faulted) (s : State) :
    StatusLegal (setStatus st causeNone s) :=
  ⟨statusWord_reserved _ _, fun _ => cause_setStatus _ _ _,
    fun h => absurd ((runState_setStatus s st causeNone).symm.trans h) hst⟩

/-- An error of the host's peek and poke alone is no CAUSE a run may end with (R24). -/
theorem statusLegal_takeError {e : ErrorKind} (he : e ≠ .invalidStackAccess) (s : State) :
    StatusLegal (takeError e s) := by
  have hcause : e.code = 1#3 ∨ e.code = 2#3 ∨ e.code = 4#3 := by revert he; cases e <;> decide
  rw [takeError_eq]
  exact ⟨statusWord_reserved _ _, fun h => absurd (runState_setStatus _ _ _) h, fun _ => by rwa [cause_setStatus]⟩

/-! ### The state's updates keep legal states legal -/

section
variable {s : State} (hs : s.Legal)
include hs

theorem legal_writePc {w : Word} (hw : w.toNat ≤ 0x0100) : (writePc w s).Legal :=
  ⟨hw, hs.sp_le, statusLegal_congr rfl hs.status_legal, hs.mem_wf⟩

theorem legal_writeSp {w : Word} (hw : w.toNat ≤ 0x00FF) : (writeSp w s).Legal :=
  ⟨hs.pc_le, hw, statusLegal_congr rfl hs.status_legal, hs.mem_wf⟩

theorem legal_writeAcc (v : Byte) : (writeAcc v s).Legal :=
  ⟨hs.pc_le, hs.sp_le, statusLegal_congr rfl hs.status_legal, hs.mem_wf⟩

theorem legal_storeByte {a : Nat} (v : Byte) (ha : a < 256) : (s.storeByte a v).Legal :=
  ⟨hs.pc_le, hs.sp_le, statusLegal_congr rfl hs.status_legal, wf_store v hs.mem_wf ha⟩

theorem legal_emitDiag (w : Word) (op : Byte) : (emitDiag w op s).Legal :=
  ⟨hs.pc_le, hs.sp_le, statusLegal_congr rfl hs.status_legal, hs.mem_wf⟩

theorem legal_setStatus {st : RunState} {c : BitVec 3} (h : StatusLegal (setStatus st c s)) :
    (setStatus st c s).Legal :=
  ⟨hs.pc_le, hs.sp_le, h, hs.mem_wf⟩

theorem legal_takeError {e : ErrorKind} (he : e ≠ .invalidStackAccess) : (takeError e s).Legal :=
  legal_setStatus hs (statusLegal_takeError he s)

theorem legal_startRun : (startRun s).Legal :=
  legal_setStatus hs (statusLegal_setStatus_none (by decide) s)

/-- HALT keeps CAUSE (R57), so it is legal only where CAUSE is NONE, as it is while RUNNING. -/
theorem legal_setRunState_halted (hrun : s.runState = .running) : (setRunState .halted s).Legal := by
  obtain ⟨-, hcause, -⟩ := hs.status_legal
  rw [setRunState_eq, hcause (by simp [hrun])]
  exact legal_setStatus hs (statusLegal_setStatus_none (by decide) s)

end

theorem legal_resetRegs {s : State} (hm : Memory.wf s.mem) : (resetRegs s).Legal :=
  ⟨by simp, by simp, statusLegal_setStatus_none (by decide) _, hm⟩

/-! ### Steps and runs keep legal states legal -/

theorem exec_keeps_legal {i : Instr} {s t : State} (hs : s.Legal) (hrun : s.runState = .running)
    (h : exec i s = .next t) : t.Legal := by
  have hsp : s.sp.toNat ≤ 0x00FF := hs.sp_le
  obtain ⟨-, rfl⟩ | ⟨-, -, rfl⟩ | ⟨-, hne, -, rfl⟩ | ⟨-, -, rfl⟩ | ⟨-, hlt, rfl⟩ | ⟨-, rfl⟩ | ⟨-, rfl⟩ := exec_cases h
  · exact legal_setRunState_halted hs hrun
  · exact legal_takeError (legal_writeAcc hs _) nofun
  · have hdec := toNat_sub_one hne
    exact legal_storeByte (legal_writeSp (legal_writeAcc hs _) (by omega)) _ (by omega)
  · exact legal_takeError hs nofun
  · have hinc := toNat_add_one (show s.sp.toNat < 0xFFFF by omega)
    exact legal_writeAcc (legal_writeSp hs (by omega)) _
  · exact legal_writeAcc hs _
  · exact legal_emitDiag hs _ _

/-- Settles O40: by what a step can answer; the fetch moves pc to 0x0100 at most, and the instruction meets the
fetched state, still RUNNING. -/
theorem stepKeepsStatesLegal : Obligations.StepKeepsStatesLegal := by
  intro s t hs h
  rcases step_cases h with ⟨-, rfl⟩ | ⟨-, -, rfl⟩ | ⟨hrun, hpc, hexec⟩
  · exact hs
  · exact legal_takeError hs nofun
  · have hinc := toNat_add_one (show s.pc.toNat < 0xFFFF by omega)
    have hfetched : (writePc (s.pc + 1#16) s).Legal := legal_writePc hs (by omega)
    exact exec_keeps_legal hfetched hrun hexec

theorem runLoop_keeps_legal {n : Nat} {s t : State} (hs : s.Legal) (h : runLoop n s = .next t) : t.Legal := by
  induction n generalizing s with
  | zero =>
    obtain rfl : s = t := by simpa only [runLoop, Host.Outcome.next.injEq] using h
    exact hs
  | succ n ih =>
    by_cases hrun : s.runState = .running
    · obtain ⟨u, hu⟩ := coreStep_next_of_sp_le hs.sp_le
      rw [runLoop_next hrun hu] at h
      exact ih (stepKeepsStatesLegal s u hs ((step_running hrun).trans hu)) h
    · obtain rfl : s = t := by simpa only [runLoop_not_running _ hrun, Host.Outcome.next.injEq] using h
      exact hs

/-! ### Host commands keep legal states legal -/

/-- Every state an operation ends in, by a value or by a `raise`, satisfies `P`. -/
def Result.Leaves {α : Type} (P : State → Prop) : Result α → Prop
  | .ok _ s => P s
  | .raised _ s => P s
  | .stopped _ => True

theorem respondStack_leaves {α : Type} {P : State → Prop} {answer : α → HostResponse} {x : Result α}
    {r : HostResponse} {t : State} (hx : x.Leaves P) (h : respondStack answer x = .next (r, t)) : P t := by
  cases x with
  | ok v u =>
    cases h
    exact hx
  | raised e u =>
    cases h
    exact hx
  | stopped f => cases h

section
variable {s : State} (hs : s.Legal)
include hs

theorem push_leaves_legal (v : Byte) : (push v s).Leaves State.Legal := by
  have hsp : s.sp.toNat ≤ 0x00FF := hs.sp_le
  rcases push_cases v s with ⟨-, e⟩ | ⟨hne, -, e⟩ | ⟨-, e⟩ <;> rw [e]
  · exact hs
  · have hdec := toNat_sub_one hne
    exact legal_storeByte (legal_writeSp hs (by omega)) v (by omega)
  · trivial

theorem pop_leaves_legal : (pop s).Leaves State.Legal := by
  rcases pop_cases s with ⟨-, e⟩ | ⟨hlt, e⟩ <;> rw [e]
  · exact hs
  · have hinc := toNat_add_one (show s.sp.toNat < 0xFFFF by omega)
    exact legal_writeSp hs (by omega)

theorem peek_leaves_legal : (peek s).Leaves State.Legal := by
  rcases Nat.lt_or_ge s.sp.toNat 255 with h | h
  · rw [peek_nonempty h]; exact hs
  · rw [peek_empty h]; exact hs

theorem poke_leaves_legal (v : Byte) : (poke v s).Leaves State.Legal := by
  rcases Nat.lt_or_ge s.sp.toNat 255 with h | h
  · rw [poke_nonempty h]; exact legal_storeByte hs v (by omega)
  · rw [poke_empty h]; exact hs

theorem hostRun_keeps_legal {r : HostResponse} {t : State} (h : hostRun s = .next (r, t)) : t.Legal := by
  cases hloop : runLoop runBound (startRun s) with
  | next u =>
    obtain ⟨-, rfl⟩ : respondRun u = r ∧ u = t := by simpa [hostRun, hloop] using h
    exact runLoop_keeps_legal (legal_startRun hs) hloop
  | fault f => simp [hostRun, hloop] at h
  | refused x => simp [hostRun, hloop] at h

theorem hostEffect_keeps_legal {c : HostCommand} {r : HostResponse} {t : State}
    (h : hostEffect c s = .next (r, t)) : t.Legal := by
  cases c with
  | new | reset =>
    cases h
    exact legal_resetRegs hs.mem_wf
  | run => exact hostRun_keeps_legal hs h
  | push v => exact respondStack_leaves (push_leaves_legal hs v) h
  | pop => exact respondStack_leaves (pop_leaves_legal hs) h
  | peek => exact respondStack_leaves (peek_leaves_legal hs) h
  | poke v => exact respondStack_leaves (poke_leaves_legal hs v) h
  | readRegs | memRead a =>
    cases h
    exact hs
  | memWrite a v =>
    cases h
    exact legal_storeByte hs v a.isLt

end

/-- Settles O41: a command that is not accepted has no next state, and an accepted one keeps legality, RUN by
induction on the turns of its loop. -/
theorem hostCommandKeepsStatesLegal : Obligations.HostCommandKeepsStatesLegal := by
  intro c s t r hs h
  by_cases hc : hostAccepts c s = true
  · rw [hostCommand_accepted hc] at h
    exact hostEffect_keeps_legal hs h
  · simp [hostCommand, hc] at h

/-! ### What an instruction leaves unchanged (R28) -/

/-- Settles O17: by the ways an instruction other than INC_PUSH ends. -/
theorem nonStoringInstructionsFrame : Obligations.NonStoringInstructionsFrame := by
  intro i s t hi h
  obtain ⟨rfl, rfl⟩ | ⟨rfl, -⟩ | ⟨rfl, -⟩ | ⟨rfl, hge, rfl⟩ | ⟨rfl, hlt, rfl⟩ | ⟨rfl, rfl⟩ |
    ⟨⟨hhalt, -, hpop, hdec⟩, rfl⟩ := exec_cases h
  · simp [setRunState_eq]
  · exact absurd rfl hi
  · exact absurd rfl hi
  · simp [takeError_eq, Nat.not_lt.2 hge]
  · simp [Nat.not_le.2 hlt]
  · simp
  · simp [unknownOpcode, hhalt, hpop, hdec]

/-- Settles O18: by the two ways INC_PUSH ends; the push stores where sp points after the decrement. -/
theorem incPushFrame : Obligations.IncPushFrame := by
  intro s t h
  obtain ⟨⟨⟩, -⟩ | ⟨-, hsp, rfl⟩ | ⟨-, hsp, -, rfl⟩ | ⟨⟨⟩, -⟩ | ⟨⟨⟩, -⟩ | ⟨⟨⟩, -⟩ | ⟨⟨-, hi, -⟩, -⟩ := exec_cases h
  · simp [takeError_eq, hsp]
  · have hother : ∀ a, a ≠ (s.sp - 1#16).toNat →
        ((writeSp (s.sp - 1#16) (writeAcc (incByte s.acc) s)).storeByte (s.sp.toNat - 1) (incByte s.acc)).byteAt a =
          s.byteAt a := by
      intro a ha
      rw [toNat_sub_one hsp] at ha
      simp [byteAt_storeByte_other _ _ ha]
    exact ⟨rfl, rfl, hother, fun _ => ⟨rfl, rfl⟩, fun h0 => absurd h0 hsp⟩
  · exact absurd rfl hi

/-! ### What a step changes (R23, R28) -/

theorem encode_decode (b : Byte) : encode (decode b) = b := by
  revert b; decide

/-- A byte that decodes to an instruction is that instruction's byte (R48, R50). -/
theorem eq_encode_of_decode {b : Byte} {i : Instr} (h : decode b = i) : b = encode i :=
  h ▸ (encode_decode b).symm

theorem runFailed_takeError (e : ErrorKind) (s : State) : RunFailed e (takeError e s) :=
  ⟨runState_setStatus _ _ _, cause_setStatus _ _ _⟩

/-- Settles O33: of the ways a step and its instruction end, the ones not named here keep STATUS. -/
theorem stepChangesStateOnlyByHaltOrError : Obligations.StepChangesStateOnlyByHaltOrError := by
  intro s t h hne
  rcases step_cases h with ⟨-, rfl⟩ | ⟨hrun, -, rfl⟩ | ⟨hrun, hpc, hexec⟩
  · exact absurd rfl hne
  · exact ⟨hrun, .inr (.inl (runFailed_takeError _ _))⟩
  · refine ⟨hrun, ?_⟩
    obtain ⟨hi, rfl⟩ | ⟨-, -, rfl⟩ | ⟨-, -, -, rfl⟩ | ⟨-, -, rfl⟩ | ⟨-, -, rfl⟩ | ⟨-, rfl⟩ | ⟨-, rfl⟩ :=
      exec_cases hexec
    · exact .inl ⟨runState_setStatus _ _ _, hpc, eq_encode_of_decode hi, cause_setStatus _ _ _⟩
    · exact .inr (.inr (.inl (runFailed_takeError _ _)))
    · exact absurd rfl hne
    · exact .inr (.inr (.inr (runFailed_takeError _ _)))
    all_goals exact absurd rfl hne

/-- Settles O35: the frames of the instructions (O17, O18), read backwards for the instruction of the fetched byte. -/
theorem stepsWriteOnlyWhatTheMatrixAllows : Obligations.StepsWriteOnlyWhatTheMatrixAllows := by
  intro s t h
  rcases step_cases h with ⟨-, rfl⟩ | ⟨-, -, rfl⟩ | ⟨-, -, hexec⟩
  · simp
  · simp [takeError_eq]
  · by_cases hi : decode (s.byteAt s.pc.toNat) = .incPush
    · have hbyte : s.byteAt s.pc.toNat = 0x01#8 := eq_encode_of_decode hi
      rw [hi] at hexec
      obtain ⟨-, -, hother, -, hfull⟩ := incPushFrame _ t hexec
      refine ⟨fun a ha => ⟨hbyte, fun h0 => ha ((hfull h0).2.2 a), ?_⟩, fun _ => .inl hbyte, fun _ => .inl hbyte⟩
      by_contra hne
      exact ha (hother a hne)
    · obtain ⟨-, -, hmem, hsp, hacc, -⟩ := nonStoringInstructionsFrame _ _ t hi hexec
      refine ⟨fun a ha => absurd (hmem a) ha, fun hne => .inr ?_, fun hne => .inr ?_⟩
      · by_contra hpop
        exact hne (hsp fun hd => hpop (eq_encode_of_decode hd))
      · by_contra hb
        obtain ⟨hpop, hdec⟩ := not_or.1 hb
        exact hne (hacc (fun hd => hpop (eq_encode_of_decode hd)) fun hd => hdec (eq_encode_of_decode hd))

/-! ### The canonical form of memory (R30) -/

theorem wf_cons_iff {c : Host.Cell} {m : Memory} :
    Memory.wf (c :: m) ↔ c.1 < Config.memSize ∧ (∀ d ∈ m, c.1 < d.1) ∧ Memory.wf m := by
  simp only [Memory.wf, List.map_cons, List.pairwise_cons, List.forall_mem_map, List.forall_mem_cons]
  tauto

theorem find_cons_same (k : Nat) (v : Byte) (m : Memory) : Memory.find ((k, v) :: m) k = some v := if_pos rfl

theorem find_cons_other {k a : Nat} (v : Byte) (m : Memory) (h : a ≠ k) :
    Memory.find ((k, v) :: m) a = Memory.find m a := if_neg h

/-- A canonical memory lists no index below its first one. -/
theorem head_le_of_find {k a : Nat} {v w : Byte} {m : Memory} (hm : Memory.wf ((k, v) :: m))
    (h : Memory.find ((k, v) :: m) a = some w) : k ≤ a := by
  obtain ⟨-, hlt, -⟩ := wf_cons_iff.1 hm
  by_contra hak
  have hnone : Memory.find ((k, v) :: m) a = none :=
    find_of_lt (List.forall_mem_cons.2 ⟨by omega, fun d hd => by have := hlt d hd; omega⟩)
  rw [hnone] at h
  cases h

/-- Settles O54, by induction on both memories: equal contents give equal first cells, since a first index is the least
index listed, and then equal contents of the rest. -/
theorem canonicalMemoriesWithEqualBytesAreEqual : Obligations.CanonicalMemoriesWithEqualBytesAreEqual := by
  intro m
  induction m with
  | nil =>
    rintro (_ | ⟨⟨k, v⟩, n⟩) - - h
    · rfl
    · cases (find_cons_same k v n).symm.trans (h k).symm
  | cons c m ih =>
    obtain ⟨k, v⟩ := c
    rintro (_ | ⟨⟨l, w⟩, n⟩) hm hn h
    · cases (find_cons_same k v m).symm.trans (h k)
    · have hlk : l ≤ k := head_le_of_find hn ((h k).symm.trans (find_cons_same k v m))
      have hkl : k ≤ l := head_le_of_find hm ((h l).trans (find_cons_same l w n))
      obtain rfl : k = l := by omega
      obtain rfl : v = w := by simpa only [find_cons_same, Option.some.injEq] using h k
      obtain ⟨-, hm_lt, hm_wf⟩ := wf_cons_iff.1 hm
      obtain ⟨-, hn_lt, hn_wf⟩ := wf_cons_iff.1 hn
      have htail : ∀ a, Memory.find m a = Memory.find n a := fun a => by
        by_cases ha : a = k
        · subst ha
          rw [find_of_lt hm_lt, find_of_lt hn_lt]
        · simpa only [find_cons_other _ _ ha] using h a
      rw [ih n hm_wf hn_wf htail]

/-! ### The state after reset, and STATUS as it is read out (R22) -/

/-- Settles O39: the state after reset holds the values a reset writes, over an empty memory. -/
theorem resetStateIsLegal : Obligations.ResetStateIsLegal :=
  legal_resetRegs (s := State.reset) wf_reset

/-- Clearing bits [7:5] of a STATUS word leaves its fields (R22). -/
theorem fields_clear_reserved (v : Byte) :
    (0#3 ++ v.extractLsb' 0 5).extractLsb' 5 3 = 0#3 ∧
    (0#3 ++ v.extractLsb' 0 5).extractLsb' 0 2 = v.extractLsb' 0 2 ∧
    (0#3 ++ v.extractLsb' 0 5).extractLsb' 2 3 = v.extractLsb' 2 3 := by
  revert v; decide

/-- Settles O51: reading out clears the reserved bits and keeps both fields; a STATUS written from its fields is read
out as the word of those fields. -/
theorem statusReadOutLayout : Obligations.StatusReadOutLayout := by
  refine ⟨fun s => ?_, fun s => ?_⟩
  · obtain ⟨hreserved, hstate, hcause⟩ := fields_clear_reserved s.status
    exact ⟨hreserved, congrArg RunState.ofCode hstate, hcause⟩
  · simp only [takeError_eq, statusOut_setStatus]
    decide

end Sys2Proof.Machine
end

section
/-! PROOFS. Memory (20_memory): the memory port returns the latest write (R36, R39), and the fetch reads the same array,
so it sees what a push (R42) and what the host between runs (R45) wrote there. -/

namespace Sys2Proof.Machine

open Sys2Proof

/-! ### The memory port (R36, R39) -/

theorem byteAt_storeByte (s : State) (a b : Nat) (v : Byte) :
    (s.storeByte a v).byteAt b = if b = a then v else s.byteAt b := by
  split_ifs with h
  · rw [h, byteAt_storeByte_same]
  · exact byteAt_storeByte_other s v h

/-- Settles O53: the write stores at index `i`, and the read at `j` meets that byte exactly when the indices agree. -/
theorem memoryReadsReturnTheLatestWrite : Obligations.MemoryReadsReturnTheLatestWrite := by
  intro i j v s hi hj
  refine ⟨s.storeByte i.toNat v, memWrite_inside hi, ?_, rfl, rfl, rfl, rfl, rfl⟩
  rw [memRead_inside hj, byteAt_storeByte]
  simp only [BitVec.toNat_inj]

/-! ### The fetch reads the byte last written under pc -/

theorem step_of_byteAt_pc {s : State} {b : Byte} (hrun : s.runState = .running) (hpc : s.pc.toNat < 256)
    (hb : s.byteAt s.pc.toNat = b) : step s = exec (decode b) (writePc (s.pc + 1#16) s) := by
  rw [step_running hrun, coreStep_inside hpc, hb]

theorem exec_incPush_inside {s : State} (h0 : s.sp ≠ 0#16) (h1 : s.sp.toNat ≤ 256) :
    exec .incPush s =
      .next ((writeSp (s.sp - 1#16) (writeAcc (incByte s.acc) s)).storeByte (s.sp.toNat - 1) (incByte s.acc)) := by
  have hpush := push_inside (v := incByte s.acc) (s := writeAcc (incByte s.acc) s) h0 h1
  simp only [exec, execIncPush, writeAcc_acc, hpush, complete_ok, writeAcc_sp]

/-- Settles O32: with sp two above the opcode's index, the push stores at the index the next fetch reads. -/
theorem fetchSeesThePushedByte : Obligations.FetchSeesThePushedByte := by
  intro s hrun hpc hbyte hsp
  have hsp0 : s.sp ≠ 0#16 := fun h0 => by simp [h0] at hsp
  have hnext : (s.pc + 1#16).toNat = s.sp.toNat - 1 := by rw [toNat_add_one (by omega)]; omega
  refine ⟨(writeSp (s.sp - 1#16) (writeAcc (incByte s.acc) (writePc (s.pc + 1#16) s))).storeByte (s.sp.toNat - 1)
    (incByte s.acc), ?_, hrun, rfl, step_of_byteAt_pc hrun ?_ ?_⟩
  · rw [step_of_byteAt_pc hrun (by omega) hbyte]
    exact exec_incPush_inside (s := writePc (s.pc + 1#16) s) hsp0 (show s.sp.toNat ≤ 256 by omega)
  · change (s.pc + 1#16).toNat < 256
    omega
  · change State.byteAt _ (s.pc + 1#16).toNat = incByte s.acc
    rw [hnext, byteAt_storeByte_same]

theorem hostAccepts_of_not_running {s : State} (c : HostCommand) (h : s.runState ≠ .running) :
    hostAccepts c s = true := by
  simp [hostAccepts, h]

theorem hostCommand_memWrite {s : State} (a v : Byte) (h : s.runState ≠ .running) :
    hostCommand (.memWrite a v) s = .next (.ok, s.storeByte a.toNat v) :=
  hostCommand_accepted (hostAccepts_of_not_running _ h)

/-- Settles O49: RUN's start leaves memory and pc, so the first fetch reads the byte MEM_WRITE stored under pc. -/
theorem hostWritesAreFetchedByTheRun : Obligations.HostWritesAreFetchedByTheRun := by
  intro a v s hstopped hpc
  have ha : s.pc.toNat < 256 := hpc ▸ a.isLt
  have hfetched : (startRun (s.storeByte a.toNat v)).byteAt s.pc.toNat = v := by
    rw [startRun_eq, byteAt_setStatus, hpc, byteAt_storeByte_same]
  exact ⟨_, hostCommand_memWrite a v hstopped, step_of_byteAt_pc (runState_setStatus _ _ _) ha hfetched⟩

end Sys2Proof.Machine
end

section
/-! PROOFS. Encoding (30_encoding): on the well-formed instructions `decode` and `encode` are inverse to each other
(R48, R50), each byte is in exactly one row of the opcode map, and a fetched byte 0x04 to 0xFF never stops the run
(R49). -/

namespace Sys2Proof.Machine

open Sys2Proof

/-! ### Instructions and their bytes (R48, R50) -/

/-- A byte of an UNKNOWN row fails every test the decoder makes before that row's own: the rows do not overlap. -/
theorem decode_encode {i : Instr} (h : i.wf = true) : decode (encode i) = i := by
  cases i with
  | halt | incPush | popAcc | dec => rfl
  | unknown04 op | unknown08 op | unknown10 op | unknown20 op | unknown40 op | unknown80 op => revert op; decide

theorem wf_decode (b : Byte) : (decode b).wf = true := by
  revert b; decide

/-- Settles O1: the decoder inverts the encoder, and the one byte it inverts is the whole encoding. -/
theorem decodeOfEncode : Obligations.DecodeOfEncode := by
  intro i hi
  have hdec : decode (encode i) = i := decode_encode hi
  refine ⟨hdec, fun rest => ?_⟩
  calc decodeBytes (encodeBytes i ++ rest)
    _ = .ok (decode (encode i), rest) := rfl
    _ = .ok (i, rest) := by rw [hdec]

/-- Settles O2: with O1, the well-formed instructions and the bytes correspond one to one. -/
theorem encodeOfDecode : Obligations.EncodeOfDecode := fun b => ⟨encode_decode b, wf_decode b⟩

/-! ### The bytes 0x04 to 0xFF (R49, R54, R69) -/

/-- The four instructions that carry no byte have bytes below 4, and an UNKNOWN row carries the byte it is decoded
from. -/
theorem decode_of_four_le {b : Byte} (hb : 4 ≤ b.toNat) :
    decode b = .unknown04 b ∨ decode b = .unknown08 b ∨ decode b = .unknown10 b ∨
    decode b = .unknown20 b ∨ decode b = .unknown40 b ∨ decode b = .unknown80 b := by
  cases hi : decode b with
  | halt | incPush | popAcc | dec =>
    rw [eq_encode_of_decode hi] at hb
    exact absurd hb (by decide)
  | unknown04 op | unknown08 op | unknown10 op | unknown20 op | unknown40 op | unknown80 op =>
    obtain rfl : b = op := eq_encode_of_decode hi
    simp

/-- Settles O3: the four opcodes by evaluation, the UNKNOWN classes by `decode_of_four_le`. -/
theorem decoderClassOfEveryByte : Obligations.DecoderClassOfEveryByte :=
  ⟨rfl, rfl, rfl, rfl, fun _ => decode_of_four_le⟩

theorem exec_decode_of_four_le {b : Byte} (hb : 4 ≤ b.toNat) (s : State) :
    exec (decode b) s = .next (unknownOpcode b s) := by
  rcases decode_of_four_le hb with h | h | h | h | h | h <;> rw [h] <;> rfl

/-- Settles O16: after the fetch the only effect is the diagnostic, whose index `pc - 1` is the opcode's own. -/
theorem unknownOpcodesNeverTrap : Obligations.UnknownOpcodesNeverTrap := by
  intro s hrun hpc hbyte
  have hstep : step s = .next (unknownOpcode (s.byteAt s.pc.toNat) (writePc (s.pc + 1#16) s)) :=
    (step_of_byteAt_pc hrun hpc rfl).trans (exec_decode_of_four_le hbyte _)
  have hindex : s.pc + 1#16 - 1#16 = s.pc := BitVec.add_sub_cancel _ _
  refine ⟨_, hstep, hrun, rfl, rfl, rfl, rfl, rfl, ?_⟩
  simp only [unknownOpcode, emitDiag_diag, writePc_diag, writePc_pc, hindex]

/-! ### The rows of the opcode map (R50) -/

theorem row_covers_encode (i : Instr) : Laws.RowEncoding.Statement i :=
  match i with
  | .halt => Laws.RowEncoding.halt
  | .incPush => Laws.RowEncoding.incPush
  | .popAcc => Laws.RowEncoding.popAcc
  | .dec => Laws.RowEncoding.dec
  | .unknown04 op => Laws.RowEncoding.unknown04 op
  | .unknown08 op => Laws.RowEncoding.unknown08 op
  | .unknown10 op => Laws.RowEncoding.unknown10 op
  | .unknown20 op => Laws.RowEncoding.unknown20 op
  | .unknown40 op => Laws.RowEncoding.unknown40 op
  | .unknown80 op => Laws.RowEncoding.unknown80 op

theorem row_decode_covers (b : Byte) : (decode b).row.covers b = true ∧ (decode b).row ∈ opcodeMap := by
  simpa only [encode_decode] using row_covers_encode (decode b) (wf_decode b)

theorem length_rows_covering (b : Byte) : (opcodeMap.filter (fun r => r.covers b)).length = 1 := by
  revert b; decide

/-- Settles O4: the row the decoder answers covers the byte because the decoded instruction is well-formed and encodes
back to that byte. -/
theorem opcodeRowsCoverEveryByteOnce : Obligations.OpcodeRowsCoverEveryByteOnce :=
  fun b => ⟨length_rows_covering b, row_decode_covers b⟩

/-! ### Table words and assembled lines (R48, R52, R53) -/

/-- A table word of eight bits is read as the one byte of its low eight bits. -/
theorem decodeTableWord_eight (w : Nat) : decodeTableWord 8 w = some (decode (BitVec.ofNat 8 w)) := by
  have hbyte : BitVec.ofNat 8 (w % 2 ^ 8) = BitVec.ofNat 8 w := BitVec.eq_of_toNat_eq (by simp)
  calc decodeTableWord 8 w
    _ = some (decode (BitVec.ofNat 8 (w % 2 ^ 8))) := rfl
    _ = some (decode (BitVec.ofNat 8 w)) := by rw [hbyte]

/-- Settles O5, by decoding the byte each word is read as. -/
theorem tableWordsDecode : Obligations.TableWordsDecode := by
  simp only [Obligations.TableWordsDecode, decodeTableWord_eight]
  decide

/-- Settles O6: a mnemonic's byte is the encoding of its instruction. -/
theorem assemblerGivesOneByteALine : Obligations.AssemblerGivesOneByteALine :=
  ⟨decode_encode (i := .halt) rfl, decode_encode (i := .incPush) rfl, decode_encode (i := .popAcc) rfl,
    decode_encode (i := .dec) rfl, fun _ => rfl, fun _ => List.length_map _⟩

end Sys2Proof.Machine
end

section
/-! PROOFS. Fetch, the halt check and the run loop (40_fetch_decode): the fetch moves pc and nothing else (R55, R56), a
step runs the instruction decoded at pc (R57 to R60), and the run loop is the iterated step (R63), which ends within its
bound because each step raises pc or ends the run (R61). -/

namespace Sys2Proof.Machine

open Sys2Proof

/-! ### The fetch and the step (R55, R56, R59) -/

/-- Settles O26: inside the array pc + 1 is at most 0x0100, so the increment does not wrap. -/
theorem fetchReadsThenIncrements : Obligations.FetchReadsThenIncrements :=
  ⟨fun _ => fetch_outside,
    fun _ hpc => ⟨_, fetch_inside hpc, toNat_add_one (by omega), rfl, rfl, rfl, rfl, rfl⟩⟩

/-- Settles O27: the decoder gives well-formed instructions only, and the fetch that succeeds only moves pc. -/
theorem stepRunsTheDecodedInstruction : Obligations.StepRunsTheDecodedInstruction := by
  rintro s i hrun hpc rfl
  exact ⟨wf_decode _, step_of_byteAt_pc hrun hpc rfl⟩

/-! ### The halt check (R57, R58) -/

theorem exec_halt (s : State) : exec .halt s = .next (setStatus .halted s.cause s) := rfl

/-- Settles O7: the halt check writes STATUS from HALTED and the CAUSE it read. -/
theorem haltCompletes : Obligations.HaltCompletes := fun s =>
  ⟨_, exec_halt s, runState_setStatus _ _ _, cause_setStatus _ _ _, statusWord_reserved _ _, rfl, rfl, rfl, rfl, rfl⟩

/-- Settles O8: 0x00 decodes to HALT, whose frame (O7) is met by the state the fetch leaves, with pc moved by one. -/
theorem haltStepOnlyAdvancesPcAndWritesStatus : Obligations.HaltStepOnlyAdvancesPcAndWritesStatus := by
  intro s hrun hpc hbyte
  obtain ⟨t, hexec, hstate, hcause, -, hpc', hframe⟩ := haltCompletes (writePc (s.pc + 1#16) s)
  refine ⟨t, (step_of_byteAt_pc hrun hpc hbyte).trans hexec, ?_, hstate, hcause, hframe⟩
  calc t.pc.toNat
    _ = (s.pc + 1#16).toNat := congrArg BitVec.toNat hpc'
    _ = s.pc.toNat + 1 := toNat_add_one (by omega)

/-! ### Sequential control flow (R60) -/

/-- No instruction writes pc, by the frames of the storing and the other instructions (O18, O17). -/
theorem exec_keeps_pc {i : Instr} {s t : State} (h : exec i s = .next t) : t.pc = s.pc := by
  by_cases hi : i = .incPush
  · subst hi
    exact (incPushFrame s t h).1
  · exact (nonStoringInstructionsFrame i s t hi h).1

/-- Settles O31: the fetch moves pc and the instruction keeps it; a failing fetch writes STATUS alone. -/
theorem everyStepAdvancesPcByOne : Obligations.EveryStepAdvancesPcByOne := by
  intro s t hrun h
  rcases step_cases h with ⟨hstopped, -⟩ | ⟨-, hpast, rfl⟩ | ⟨-, hpc, hexec⟩
  · exact absurd hrun hstopped
  · exact ⟨fun hpc => by omega, fun _ => rfl⟩
  · have hnext : t.pc = s.pc + 1#16 := exec_keeps_pc hexec
    exact ⟨fun _ => by rw [hnext, toNat_add_one (by omega)], fun hpast => by omega⟩

/-! ### The run loop (R61, R63) -/

/-- Settles O44, by induction on the number of steps: while RUNNING, one turn of the loop and one step of the run end
alike; a stopped core answers itself to both. -/
theorem runLoopIsTheIteratedStep : Obligations.RunLoopIsTheIteratedStep := by
  intro n
  induction n with
  | zero => exact fun _ => rfl
  | succ n ih =>
    intro s
    by_cases hrun : s.runState = .running
    · have hstep : step s = coreStep s := step_running hrun
      cases e : coreStep s with
      | next t => exact (runLoop_next hrun e).trans ((ih t).trans (core_run_next core (hstep.trans e)).symm)
      | fault f => exact (runLoop_fault hrun e).trans (core_run_fault core (hstep.trans e)).symm
      | refused r => exact (runLoop_refused hrun e).trans (core_run_refused core (hstep.trans e)).symm
    · have hstay : runLoop (n + 1) s = runLoop n s := by
        rw [runLoop_not_running _ hrun, runLoop_not_running _ hrun]
      exact hstay.trans ((ih s).trans (core_run_next core (step_not_running hrun)).symm)

/-- A step of a RUNNING core either leaves it RUNNING or ends the run (R23). -/
theorem step_running_or_ends {s t : State} (hrun : s.runState = .running) (h : step s = .next t) :
    t.runState = .running ∨ t.runState = .halted ∨ t.runState = .faulted := by
  by_cases hstate : t.runState = s.runState
  · exact .inl (hstate.trans hrun)
  · obtain ⟨-, ⟨hhalt, -⟩ | ⟨hfault, -⟩ | ⟨hfault, -⟩ | ⟨hfault, -⟩⟩ :=
      stepChangesStateOnlyByHaltOrError s t h hstate
    · exact .inr (.inl hhalt)
    all_goals exact .inr (.inr hfault)

/-- The measure of R61: with `n` bytes or fewer before the end of the array, a run ends within `n + 1` steps. -/
theorem runLoop_ends_of_memSize_le {n : Nat} {s : State} (hsp : s.sp.toNat ≤ 0x00FF) (hrun : s.runState = .running)
    (hn : 256 ≤ s.pc.toNat + n) :
    ∃ t, runLoop (n + 1) s = .next t ∧ (t.runState = .halted ∨ t.runState = .faulted) := by
  induction n generalizing s with
  | zero => exact ⟨_, runLoop_next hrun (coreStep_outside hn), .inr (runState_setStatus _ _ _)⟩
  | succ n ih =>
    obtain ⟨u, hu⟩ := coreStep_next_of_sp_le hsp
    have hstep : step s = .next u := (step_running hrun).trans hu
    rw [runLoop_next hrun hu]
    rcases step_running_or_ends hrun hstep with hu_run | hu_end
    · obtain ⟨hadvance, hkeep⟩ := everyStepAdvancesPcByOne s u hrun hstep
      have hpc : 256 ≤ u.pc.toNat + n := by
        rcases Nat.lt_or_ge s.pc.toNat 256 with hlt | hge
        · rw [hadvance hlt]; omega
        · rw [hkeep hge]; omega
      exact ih (step_keeps_sp_le hsp hstep) hu_run hpc
    · exact ⟨u, runLoop_not_running _ (by rcases hu_end with h | h <;> simp [h]), hu_end⟩

/-- Settles O43: of a legal state only its bound on sp (R18) is needed, so that the model never stops. -/
theorem everyRunEndsWithinItsBound : Obligations.EveryRunEndsWithinItsBound :=
  fun _ hs hrun => runLoop_ends_of_memSize_le hs.sp_le hrun (by omega)

end Sys2Proof.Machine
end

section
/-! PROOFS. Execution (41_execute): where each instruction of the execution engine completes and where its stack operation
takes an error (R66 to R69), with acc counted modulo 256 (R70). -/

namespace Sys2Proof.Machine

open Sys2Proof

/-! ### Arithmetic on acc (R70) -/

theorem toNat_incByte (v : Byte) : (incByte v).toNat = (v.toNat + 1) % 256 := BitVec.toNat_add v 1#8

theorem toNat_decByte (v : Byte) : (decByte v).toNat = (v.toNat + 255) % 256 := by
  rw [Nat.add_comm]
  exact BitVec.toNat_sub v 1#8

/-! ### INC_PUSH (R66, R71) -/

/-- Settles O9: the store is at the decremented sp (`exec_incPush_inside`), and the frame of INC_PUSH (O18) gives the
rest. -/
theorem incPushCompletes : Obligations.IncPushCompletes := by
  intro s h0 h1
  have hexec := exec_incPush_inside h0 h1
  have hdec : (s.sp - 1#16).toNat = s.sp.toNat - 1 := toNat_sub_one h0
  obtain ⟨hpc, hdiag, hother, hkeep, -⟩ := incPushFrame s _ hexec
  refine ⟨_, hexec, toNat_incByte s.acc, hdec, ?_, hother, hpc, (hkeep h0).1, hdiag⟩
  rw [hdec]
  exact byteAt_storeByte_same _ _ _

theorem exec_incPush_full {s : State} (h0 : s.sp = 0#16) :
    exec .incPush s = .next (takeError .stackOverflow (writeAcc (incByte s.acc) s)) := by
  have hpush := push_full (v := incByte s.acc) (s := writeAcc (incByte s.acc) s) h0
  simp only [exec, execIncPush, writeAcc_acc, hpush, complete_raised]

/-- Settles O10: the failed push leaves the incremented acc, and taking the error writes STATUS alone. -/
theorem incPushOverflowTakesError : Obligations.IncPushOverflowTakesError := fun s h0 =>
  ⟨_, exec_incPush_full h0, toNat_incByte s.acc, runFailed_takeError _ _, h0, rfl, rfl, rfl⟩

/-! ### POP_ACC (R67, R72) -/

theorem exec_popAcc_nonempty {s : State} (h : s.sp.toNat < 0x00FF) :
    exec .popAcc s = .next (writeAcc (s.byteAt s.sp.toNat) (writeSp (s.sp + 1#16) s)) := by
  simp only [exec, execPopAcc, pop_nonempty h, complete_ok]

theorem exec_popAcc_empty {s : State} (h : 0x00FF ≤ s.sp.toNat) :
    exec .popAcc s = .next (takeError .stackUnderflow s) := by
  simp only [exec, execPopAcc, pop_empty h, complete_raised]

/-- Settles O12: below SP_EMPTY the increment of sp does not wrap. -/
theorem popAccCompletes : Obligations.PopAccCompletes := fun _ h =>
  ⟨_, exec_popAcc_nonempty h, rfl, toNat_add_one (by omega), rfl, rfl, rfl, rfl⟩

/-- Settles O13: the failed pop changes nothing, and taking the error writes STATUS alone. -/
theorem popAccUnderflowTakesError : Obligations.PopAccUnderflowTakesError := fun _ h =>
  ⟨_, exec_popAcc_empty h, runFailed_takeError _ _, rfl, rfl, rfl, rfl, rfl⟩

/-! ### DEC (R68) -/

theorem exec_dec (s : State) : exec .dec s = .next (writeAcc (decByte s.acc) s) := rfl

/-- Settles O14: DEC writes acc alone, in the step too, where it meets the state with pc moved past the opcode. -/
theorem decCompletes : Obligations.DecCompletes := by
  refine ⟨rfl, fun s => ?_, fun s hrun hpc hbyte => ?_⟩
  · exact ⟨_, exec_dec s, toNat_decByte s.acc, rfl, rfl, rfl, rfl, rfl, fun _ => byteAt_writeAcc _ _ _⟩
  · have hstep : step s = .next (writeAcc (decByte s.acc) (writePc (s.pc + 1#16) s)) :=
      (step_of_byteAt_pc hrun hpc hbyte).trans (exec_dec _)
    exact ⟨_, hstep, toNat_decByte s.acc, toNat_add_one (by omega), rfl, rfl, rfl⟩

/-! ### The UNKNOWN rows (R69) -/

/-- Settles O15: every UNKNOWN row has the one meaning `unknownOpcode`, and the bytes 0x04 to 0xFF decode to these rows
(`exec_decode_of_four_le`). -/
theorem unknownOpcodesComplete : Obligations.UnknownOpcodesComplete :=
  ⟨fun _ _ => ⟨rfl, rfl, rfl, rfl, rfl, rfl⟩, fun _ s hb => exec_decode_of_four_le hb s⟩

end Sys2Proof.Machine
end

section
/-! PROOFS. The stack sequencer (42_stack_sequencer): what each micro-operation reads and writes (R71 to R74), how they
pair up (R75), and where pushes in a row store (R76): downward from the sp they start at, index 0xFF never reached. -/

namespace Sys2Proof.Machine

open Sys2Proof

/-! ### One push (R71, R77) -/

/-- A push checks sp alone, so no byte of memory decides whether it succeeds. -/
theorem push_succeeds (v : Byte) {s : State} (h0 : 1 ≤ s.sp.toNat) (h1 : s.sp.toNat ≤ 256) :
    ∃ t, push v s = .ok () t ∧ t.sp.toNat = s.sp.toNat - 1 ∧ t.byteAt (s.sp.toNat - 1) = v ∧
      ∀ a, a ≠ s.sp.toNat - 1 → t.byteAt a = s.byteAt a := by
  have hne : s.sp ≠ 0#16 := fun e => by simp [e] at h0
  exact ⟨_, push_inside hne h1, toNat_sub_one hne, byteAt_storeByte_same _ _ _,
    fun _ ha => byteAt_storeByte_other _ v ha⟩

/-- Settles O25: a push succeeds over any memory, so over the one put in. -/
theorem pushIgnoresWhatItOverwrites : Obligations.PushIgnoresWhatItOverwrites := by
  intro v m s h0 h1
  obtain ⟨t, hpush, -, htop, -⟩ := push_succeeds v (s := { s with mem := m }) h0 (Nat.le_succ_of_le h1)
  exact ⟨t, hpush, htop⟩

/-! ### Pushes in a row (R71, R76) -/

/-- By induction on the pushes: the first stores just below sp, and the later ones, which start from there, store below
that byte. -/
theorem pushAll_succeeds {vs : List Byte} {s : State} (hlen : vs.length ≤ s.sp.toNat) (hsp : s.sp.toNat ≤ 256) :
    ∃ t, pushAll vs s = .ok () t ∧ t.sp.toNat = s.sp.toNat - vs.length ∧
      (∀ n v, vs[n]? = some v → t.byteAt (s.sp.toNat - 1 - n) = v) ∧
      ∀ a, s.sp.toNat ≤ a → t.byteAt a = s.byteAt a := by
  induction vs generalizing s with
  | nil => exact ⟨s, rfl, rfl, fun n v h => by simp at h, fun _ _ => rfl⟩
  | cons w vs ih =>
    rw [List.length_cons] at hlen ⊢
    obtain ⟨u, hpush, husp, hutop, huother⟩ := push_succeeds w (s := s) (by omega) hsp
    obtain ⟨t, hall, htsp, htfill, htabove⟩ := ih (s := u) (by omega) (by omega)
    refine ⟨t, by rw [pushAll, hpush]; exact hall, by omega, fun n v hn => ?_, fun a ha => ?_⟩
    · cases n with
      | zero =>
        obtain rfl : w = v := by simpa using hn
        exact (htabove _ husp.le).trans hutop
      | succ n =>
        have hindex : s.sp.toNat - 1 - (n + 1) = u.sp.toNat - 1 - n := by omega
        rw [hindex]
        exact htfill n v (by simpa using hn)
    · exact (htabove a (by omega)).trans (huother a (by omega))

/-- Settles O19: the guard and the store are `push_full` and `push_inside`; the pushes before the n-th leave sp at
0xFF - (n - 1), below which it stores. -/
theorem pushGuardsDecrementsAndWrites : Obligations.PushGuardsDecrementsAndWrites := by
  refine ⟨fun _ _ => push_full, fun v s h0 h1 => ?_, fun vs v s hsp hlen => ?_⟩
  · have hdec : (s.sp - 1#16).toNat = s.sp.toNat - 1 := toNat_sub_one h0
    refine ⟨_, push_inside h0 h1, rfl, ?_, fun a ha => ?_, rfl, rfl, rfl, rfl⟩
    · rw [storeByte_sp, writeSp_sp, hdec, byteAt_storeByte_same]
    · rw [storeByte_sp, writeSp_sp, hdec] at ha
      exact byteAt_storeByte_other _ v ha
  · have hfull : s.sp.toNat = 255 := by rw [hsp]; rfl
    obtain ⟨t, hall, htsp, -⟩ := pushAll_succeeds (vs := vs) (s := s) (by omega) (by omega)
    obtain ⟨u, hpush, husp, htop, -⟩ := push_succeeds v (s := t) (by omega) (by omega)
    have hindex : 0xFF - (vs.length + 1) = t.sp.toNat - 1 := by omega
    rw [hindex]
    exact ⟨t, u, hall, hpush, husp, htop⟩

/-- Settles O23: 255 pushes take sp from 0xFF to 0 and store below 0xFF only. -/
theorem stackHoldsExactly255Bytes : Obligations.StackHoldsExactly255Bytes := by
  intro vs s hsp hlen
  have hfull : s.sp.toNat = 255 := by rw [hsp]; rfl
  obtain ⟨t, hall, htsp, hfill, habove⟩ := pushAll_succeeds (vs := vs) (s := s) (by omega) (by omega)
  have hzero : t.sp = 0#16 := BitVec.eq_of_toNat_eq (by rw [htsp, hfull, hlen]; rfl)
  rw [hfull] at hfill
  exact ⟨t, hall, hzero, hfill, habove _ hfull.le, fun _ => push_full hzero⟩

/-! ### Pop, peek and poke (R72 to R74) -/

/-- Settles O20: below SP_EMPTY the increment of sp does not wrap. -/
theorem popGuardsReadsAndIncrements : Obligations.PopGuardsReadsAndIncrements :=
  ⟨fun _ => pop_empty, fun _ h => ⟨_, pop_nonempty h, toNat_add_one (by omega), rfl, rfl, rfl, rfl, rfl⟩⟩

/-- Settles O21: the guards are those of peek and poke; below SP_EMPTY poke stores at sp alone. -/
theorem peekAndPokeTouchTheTopByte : Obligations.PeekAndPokeTouchTheTopByte :=
  ⟨fun _ h => ⟨peek_empty h, fun _ => poke_empty h⟩,
    fun s h => ⟨peek_nonempty h, fun v => ⟨_, poke_nonempty h, byteAt_storeByte_same _ _ _,
      fun _ ha => byteAt_storeByte_other s v ha, rfl, rfl, rfl, rfl, rfl⟩⟩⟩

/-! ### How the operations pair up (R75) -/

theorem peek_after_poke {s : State} (x : Byte) (h : s.sp.toNat < 255) :
    ∃ p, poke x s = .ok () p ∧ peek p = .ok x p := by
  refine ⟨_, poke_nonempty h, (peek_nonempty (s := s.storeByte s.sp.toNat x) h).trans ?_⟩
  rw [storeByte_sp, byteAt_storeByte_same]

/-- Settles O22: the push leaves sp at the byte it stored, below SP_EMPTY, where pop and peek read; pop's increment
undoes the decrement. -/
theorem pushThenPopRestores : Obligations.PushThenPopRestores := by
  refine ⟨fun v s h0 h1 => ?_, fun _ _ => push_full⟩
  obtain ⟨t, hpush, htsp, htop, -⟩ := push_succeeds v h0 (Nat.le_succ_of_le h1)
  have hlt : t.sp.toNat < 255 := by omega
  have hread : t.byteAt t.sp.toNat = v := by rw [htsp, htop]
  have hback : t.sp + 1#16 = s.sp := BitVec.eq_of_toNat_eq (by rw [toNat_add_one (by omega)]; omega)
  have hpeek : peek t = .ok v t := by rw [peek_nonempty hlt, hread]
  have hpop : pop t = .ok v (writeSp (t.sp + 1#16) t) := by rw [pop_nonempty hlt, hread]
  exact ⟨t, _, hpush, hpeek, hpop, hback, htop, fun x => peek_after_poke x hlt⟩

/-! ### Index 0xFF (R37, R76) -/

theorem pop_ok {s t : State} {v : Byte} (h : pop s = .ok v t) :
    s.sp.toNat < 255 ∧ v = s.byteAt s.sp.toNat ∧ t = writeSp (s.sp + 1#16) s := by
  rcases pop_cases s with ⟨-, e⟩ | ⟨hlt, e⟩ <;> rw [e] at h
  · cases h
  · cases h
    exact ⟨hlt, rfl, rfl⟩

theorem peek_ok {s t : State} {v : Byte} (h : peek s = .ok v t) :
    s.sp.toNat < 255 ∧ v = s.byteAt s.sp.toNat ∧ t = s := by
  rcases Nat.lt_or_ge s.sp.toNat 255 with hlt | hge
  · rw [peek_nonempty hlt] at h
    cases h
    exact ⟨hlt, rfl, rfl⟩
  · rw [peek_empty hge] at h
    cases h

theorem poke_ok {s t : State} {v : Byte} (h : poke v s = .ok () t) :
    s.sp.toNat < 255 ∧ t = s.storeByte s.sp.toNat v := by
  rcases Nat.lt_or_ge s.sp.toNat 255 with hlt | hge
  · rw [poke_nonempty hlt] at h
    cases h
    exact ⟨hlt, rfl⟩
  · rw [poke_empty hge] at h
    cases h

theorem push_ok {s t : State} {v : Byte} (h : push v s = .ok () t) :
    s.sp ≠ 0#16 ∧ s.sp.toNat ≤ 256 ∧ t = (writeSp (s.sp - 1#16) s).storeByte (s.sp.toNat - 1) v := by
  rcases push_cases v s with ⟨-, e⟩ | ⟨h0, h1, e⟩ | ⟨-, e⟩ <;> rw [e] at h
  · cases h
  · cases h
    exact ⟨h0, h1, rfl⟩
  · cases h

/-- What is stored at 0xFF is not the top byte of a stack that holds something. -/
theorem byteAt_sp_storeByte_sentinel {s : State} (x : Byte) (h : s.sp.toNat < 255) :
    (s.storeByte 0xFF x).byteAt s.sp.toNat = s.byteAt s.sp.toNat :=
  byteAt_storeByte_other s x h.ne

/-- Settles O24: push stores at sp - 1 and the others reach the byte at sp only while sp is below 0xFF. -/
theorem stackNeverTouchesSentinel : Obligations.StackNeverTouchesSentinel := by
  refine fun s hsp => ⟨fun v t h => ?_, fun v t h => ?_, fun x v t h => ?_, fun x v t h => ?_⟩
  · obtain ⟨-, -, rfl⟩ := push_ok h
    exact byteAt_storeByte_other _ v (by omega)
  · obtain ⟨hlt, rfl⟩ := poke_ok h
    exact byteAt_storeByte_other s v hlt.ne'
  · obtain ⟨hlt, rfl, rfl⟩ := pop_ok h
    rw [← byteAt_sp_storeByte_sentinel x hlt]
    exact ⟨rfl, _, pop_nonempty (s := s.storeByte 0xFF x) hlt⟩
  · obtain ⟨hlt, rfl, rfl⟩ := peek_ok h
    rw [← byteAt_sp_storeByte_sentinel x hlt]
    exact ⟨rfl, _, peek_nonempty (s := t.storeByte 0xFF x) hlt⟩

end Sys2Proof.Machine
end

section
/-! PROOFS. The host interface (43_host_interface): what each command answers and leaves unchanged between runs (R78 to
R88, R98), how a RUN starts and ends (R81), and that neither the core nor a command reads the diagnostic output (R89). -/

namespace Sys2Proof.Machine

open Sys2Proof

/-! ### When a command is accepted (R78, R88) -/

/-- Settles O52: acceptance asks for a core that is not RUNNING, or for NEW. -/
theorem hostMovesOnlyBetweenRuns : Obligations.HostMovesOnlyBetweenRuns := by
  refine ⟨fun c s hrun hc => ?_, fun c s => hostAccepts_of_not_running c⟩
  have haccepts : ¬ hostAccepts c s = true := by simp [hostAccepts, hrun, hc]
  exact if_neg haccepts

theorem hostCommand_of_not_running {s : State} (c : HostCommand) (h : s.runState ≠ .running) :
    hostCommand c s = hostEffect c s :=
  hostCommand_accepted (hostAccepts_of_not_running c h)

/-- Settles O50: READ_REGS is accepted between runs, and answers from the state it leaves. -/
theorem readRegsReturnsTheRegisters : Obligations.ReadRegsReturnsTheRegisters :=
  fun _ hstopped => hostCommand_of_not_running .readRegs hstopped

/-! ### RESET and NEW (R79, R80, R111) -/

theorem hostCommand_reset {s : State} (h : s.runState ≠ .running) : hostCommand .reset s = .next (.ok, resetRegs s) :=
  hostCommand_of_not_running .reset h

/-- Two states with equal memory differ after reset in the output trace alone. -/
theorem sameButDiag_resetRegs {s u : State} (h : u.mem = s.mem) : SameButDiag (resetRegs s) (resetRegs u) :=
  ⟨rfl, rfl, rfl, rfl, h.symm⟩

/-- Settles O37: a reset writes fixed values over all registers and STATUS, and leaves a state that RESET accepts. -/
theorem resetIgnoresPriorState : Obligations.ResetIgnoresPriorState := by
  refine ⟨fun s hstopped => ?_, fun s hrun => hostMovesOnlyBetweenRuns.1 .reset s hrun nofun⟩
  have hagain : hostCommand .reset (resetRegs s) = .next (.ok, resetRegs s) := hostCommand_reset nofun
  exact ⟨resetRegs s, hostCommand_reset hstopped, rfl, rfl, rfl, rfl, cause_resetRegs s, rfl, hagain,
    fun u hu hmem => ⟨resetRegs u, hostCommand_reset hu, sameButDiag_resetRegs hmem⟩⟩

/-- Settles O38: NEW is accepted in every state and has the effect of RESET. -/
theorem newInitialisesInEveryState : Obligations.NewInitialisesInEveryState := by
  intro s
  have hnew : hostCommand .new s = .next (.ok, resetRegs s) := hostCommand_accepted (by simp [hostAccepts])
  exact ⟨resetRegs s, hnew, rfl, rfl, rfl, rfl, cause_resetRegs s, rfl, hostCommand_reset⟩

/-! ### PUSH, POP, PEEK and POKE (R82 to R85, R98) -/

section
variable {s : State} (hstopped : s.runState ≠ .running)
include hstopped

theorem hostCommand_push (v : Byte) : hostCommand (.push v) s = respondStack (fun _ => .ok) (push v s) :=
  hostCommand_of_not_running _ hstopped

theorem hostCommand_pop : hostCommand .pop s = respondStack .okByte (pop s) :=
  hostCommand_of_not_running _ hstopped

theorem hostCommand_peek : hostCommand .peek s = respondStack .okByte (peek s) :=
  hostCommand_of_not_running _ hstopped

theorem hostCommand_poke (v : Byte) : hostCommand (.poke v) s = respondStack (fun _ => .ok) (poke v s) :=
  hostCommand_of_not_running _ hstopped

end

/-- Settles O47: each command answers its micro-operation's value or error, whose guards decide which. -/
theorem hostStackCommandsAnswer : Obligations.HostStackCommandsAnswer := by
  intro s hstopped
  simp only [hostCommand_push hstopped, hostCommand_pop hstopped, hostCommand_peek hstopped,
    hostCommand_poke hstopped]
  refine ⟨fun v hfull => ?_, fun v hne hle => ?_, fun hempty => ?_, fun hlt => ?_⟩
  · rw [push_full hfull]
    rfl
  · rw [push_inside hne (by omega)]
    exact ⟨_, rfl, rfl, rfl⟩
  · rw [pop_empty hempty, peek_empty hempty]
    refine ⟨rfl, rfl, fun v => ?_⟩
    rw [poke_empty hempty]
    rfl
  · rw [pop_nonempty hlt, peek_nonempty hlt]
    refine ⟨⟨_, rfl, rfl, rfl⟩, rfl, fun v => ?_⟩
    rw [poke_nonempty hlt]
    exact ⟨_, rfl, rfl, rfl⟩

/-! ### MEM_WRITE, MEM_READ and loading (R87) -/

theorem hostSession_cons {c : HostCommand} {cs : List HostCommand} {s u t : State} {r : HostResponse}
    {rs : List HostResponse} (hc : hostCommand c s = .next (r, u)) (hcs : hostSession cs u = .next (rs, t)) :
    hostSession (c :: cs) s = .next (r :: rs, t) := by
  simp only [hostSession, hc, hcs]

/-- By induction on the image, at a start index that is a number, since the 8-bit index of the command wraps after the
last byte of an image that fills the array. -/
theorem hostSession_loadCommandsFrom {k : Nat} {image : List Byte} {s : State} (hstopped : s.runState ≠ .running)
    (hk : k + image.length ≤ 256) :
    ∃ rs t, hostSession (loadCommandsFrom (BitVec.ofNat 8 k) image) s = .next (rs, t) ∧
      (∀ n v, image[n]? = some v → t.byteAt (k + n) = v) ∧
      (∀ a, a < k ∨ k + image.length ≤ a → t.byteAt a = s.byteAt a) ∧
      t.pc = s.pc ∧ t.sp = s.sp ∧ t.acc = s.acc ∧ t.status = s.status := by
  induction image generalizing k s with
  | nil => exact ⟨[], s, rfl, fun n v h => by simp at h, fun _ _ => rfl, rfl, rfl, rfl, rfl⟩
  | cons w image ih =>
    rw [List.length_cons] at hk ⊢
    have hindex : (BitVec.ofNat 8 k).toNat = k := Nat.mod_eq_of_lt (by omega)
    have hnext : BitVec.ofNat 8 k + 1#8 = BitVec.ofNat 8 (k + 1) := (BitVec.ofNat_add k 1).symm
    have hwrite := hostCommand_memWrite (BitVec.ofNat 8 k) w hstopped
    rw [hindex] at hwrite
    obtain ⟨rs, t, hrest, hbytes, hother, hregs⟩ :=
      ih (k := k + 1) (s := s.storeByte k w) hstopped (by omega)
    refine ⟨.ok :: rs, t, hostSession_cons hwrite (hnext ▸ hrest), fun n v hn => ?_, fun a ha => ?_, hregs⟩
    · cases n with
      | zero =>
        obtain rfl : w = v := by simpa using hn
        exact (hother k (by omega)).trans (byteAt_storeByte_same s k w)
      | succ n =>
        rw [← Nat.add_assoc, Nat.add_right_comm]
        exact hbytes n v (by simpa using hn)
    · exact (hother a (by omega)).trans (byteAt_storeByte_other s w (by omega))

/-- Settles O48: MEM_WRITE stores at its index alone, and loading is the case of index 0 of
`hostSession_loadCommandsFrom`. -/
theorem hostMemoryCommandsReachEveryIndex : Obligations.HostMemoryCommandsReachEveryIndex := by
  refine ⟨fun a v s hstopped => ⟨?_, hostCommand_of_not_running (.memRead a) hstopped⟩, fun image s hstopped hlen => ?_⟩
  · exact ⟨_, hostCommand_memWrite a v hstopped, byteAt_storeByte_same _ _ _,
      fun _ hb => byteAt_storeByte_other s v hb, rfl, rfl, rfl, rfl, rfl⟩
  · obtain ⟨rs, t, hload, hbytes, hother, hregs⟩ :=
      hostSession_loadCommandsFrom (k := 0) (image := image) hstopped (by omega)
    exact ⟨rs, t, hload, fun n v hn => by simpa using hbytes n v hn, fun a ha => hother a (by omega), hregs⟩

/-! ### Placing a word (R87, R81) -/

theorem decodeTableWord_eq {nbits w : Nat} {b : Byte} {rest : List Byte} (h : bytesOfWord nbits w = b :: rest) :
    decodeTableWord nbits w = some (decode b) := by
  simp only [decodeTableWord, h, decodeBytes]

theorem withFetchWord_inside {s : State} {nbits w : Nat} {b : Byte} {rest : List Byte}
    (h : bytesOfWord nbits w = b :: rest) (hpc : s.pc.toNat < 256) :
    s.withFetchWord nbits w = startRun (s.storeByte s.pc.toNat b) := by
  have hinside : s.pc.toNat < Config.memSize := hpc
  exact (placeFetchWord_eq s h).trans (by rw [if_pos hinside])

theorem withFetchWord_outside {s : State} {nbits w : Nat} {b : Byte} {rest : List Byte}
    (h : bytesOfWord nbits w = b :: rest) (hpc : 256 ≤ s.pc.toNat) :
    s.withFetchWord nbits w = startRun ((writePc 0x0000#16 s).storeByte (writePc 0x0000#16 s).pc.toNat b) := by
  have houtside : ¬ s.pc.toNat < Config.memSize := Nat.not_lt.2 hpc
  exact (placeFetchWord_eq s h).trans (by rw [if_neg houtside, Config.pcReset])

/-- A core started over a byte stored under its pc runs that byte first, wherever in the array pc is. -/
theorem step_startRun_storeByte_pc {s : State} (b : Byte) (hpc : s.pc.toNat < 256) :
    step (startRun (s.storeByte s.pc.toNat b)) =
      exec (decode b) (writePc (s.pc + 1#16) (startRun (s.storeByte s.pc.toNat b))) :=
  step_of_byteAt_pc (runState_setStatus _ _ _) hpc (byteAt_storeByte_same s _ b)

/-- Settles O55: the first byte of the word is the one decoded and the one placed; where pc lies outside the array,
placing is placing at index 0. -/
theorem placedWordRunsNext : Obligations.PlacedWordRunsNext := by
  intro s nbits w i hi
  obtain ⟨b, rest, hbytes⟩ := bytesOfWord_cons nbits w
  obtain rfl : decode b = i := by simpa only [decodeTableWord_eq hbytes, Option.some.injEq] using hi
  have hother : ∀ u : State, ∀ a, a ≠ u.pc.toNat → (startRun (u.storeByte u.pc.toNat b)).byteAt a = u.byteAt a :=
    fun u a ha => byteAt_storeByte_other u b ha
  rcases Nat.lt_or_ge s.pc.toNat 256 with hpc | hpc
  · rw [withFetchWord_inside hbytes hpc]
    exact ⟨step_startRun_storeByte_pc b hpc, fun _ => rfl, fun h => by omega, hother s, rfl, rfl, rfl,
      runState_setStatus _ _ _, cause_setStatus _ _ _⟩
  · have hzero : (0x0000#16).toNat < 256 := by decide
    rw [withFetchWord_outside hbytes hpc]
    exact ⟨step_startRun_storeByte_pc b (s := writePc 0x0000#16 s) hzero, fun h => by omega, fun _ => rfl,
      hother (writePc 0x0000#16 s), rfl, rfl, rfl, runState_setStatus _ _ _, cause_setStatus _ _ _⟩

/-! ### RUN (R81, R90) -/

/-- A turn of the loop that answers is a step of the core, and the loop goes on from its next state (R63). -/
theorem runLoop_succ_iff {n : Nat} {s t : State} :
    runLoop (n + 1) s = .next t ↔ ∃ u, step s = .next u ∧ runLoop n u = .next t := by
  have hloop : ∀ m v, runLoop m v = Host.Core.run core m v := runLoopIsTheIteratedStep
  simp only [hloop]
  cases e : step s with
  | next u => simp [core_run_next core e]
  | fault f => simp [core_run_fault core e]
  | refused r => simp [core_run_refused core e]

/-- A run that has ended stays as it is, however many turns more the loop is given. -/
theorem runLoop_of_ended_of_le {n m : Nat} {s t : State} (h : runLoop n s = .next t) (hend : t.runState ≠ .running)
    (hnm : n ≤ m) : runLoop m s = .next t := by
  obtain ⟨k, rfl⟩ := Nat.exists_eq_add_of_le hnm
  clear hnm
  induction n generalizing s with
  | zero =>
    obtain rfl : s = t := by simpa only [runLoop, Host.Outcome.next.injEq] using h
    exact runLoop_not_running _ hend
  | succ n ih =>
    obtain ⟨u, hstep, hloop⟩ := runLoop_succ_iff.1 h
    rw [Nat.add_right_comm]
    exact runLoop_succ_iff.2 ⟨u, hstep, ih hloop⟩

theorem hostRun_eq_next_iff {s t : State} {r : HostResponse} :
    hostRun s = .next (r, t) ↔ runLoop runBound (startRun s) = .next t ∧ r = respondRun t := by
  rw [hostRun]
  cases runLoop runBound (startRun s) with
  | next u =>
    simp only [Host.Outcome.next.injEq, Prod.mk.injEq]
    constructor <;> rintro ⟨rfl, rfl⟩ <;> exact ⟨rfl, rfl⟩
  | fault f | refused x => simp

theorem respondRun_halted {s : State} (h : s.runState = .halted) : respondRun s = .ok := by
  simp only [respondRun, h]

theorem respondRun_faulted {s : State} (h : s.runState = .faulted) : respondRun s = .err s.cause := by
  simp only [respondRun, h]

/-- Settles O45: from a legal state the loop ends within its bound (O43), so in RUN's `runBound` turns too. -/
theorem runStartsAtPcAndAnswersHowItEnded : Obligations.RunStartsAtPcAndAnswersHowItEnded := by
  intro s hs hstopped
  obtain ⟨t, hloop, hend⟩ :=
    everyRunEndsWithinItsBound (startRun s) (legal_startRun hs) (runState_setStatus _ _ _)
  change runLoop (256 - s.pc.toNat + 1) (startRun s) = .next t at hloop
  have hended : t.runState ≠ .running := by rcases hend with h | h <;> simp [h]
  have hbound : 256 - s.pc.toNat + 1 ≤ runBound := by
    rw [runBound, memSize_eq]
    omega
  have hwhole : runLoop runBound (startRun s) = .next t := runLoop_of_ended_of_le hloop hended hbound
  have hrun : hostCommand .run s = .next (respondRun t, t) :=
    (hostCommand_of_not_running .run hstopped).trans (hostRun_eq_next_iff.2 ⟨hwhole, rfl⟩)
  exact ⟨startRun s, t, respondRun t, rfl, rfl, rfl, rfl, rfl, runState_setStatus _ _ _, cause_setStatus _ _ _, hloop,
    hrun, hend.imp (fun h => ⟨h, respondRun_halted h⟩) fun h => ⟨h, respondRun_faulted h⟩⟩

/-! ### Nothing reads the diagnostic output (R27, R89) -/

/-- The state with another output trace. -/
def State.withDiag (d : List DiagEvent) (s : State) : State := { s with diag := d }

theorem sameButDiag_withDiag (d : List DiagEvent) (s : State) : SameButDiag s (s.withDiag d) :=
  ⟨rfl, rfl, rfl, rfl, rfl⟩

/-- States that differ in the trace alone are one state under two traces. -/
theorem eq_withDiag_of_sameButDiag {s t : State} (h : SameButDiag s t) : t = s.withDiag t.diag := by
  obtain ⟨pc, sp, acc, status, mem, diag⟩ := s
  obtain ⟨rfl, rfl, rfl, rfl, rfl⟩ := h
  rfl

theorem exec_of_unknown {i : Instr} (hi : i ≠ .halt ∧ i ≠ .incPush ∧ i ≠ .popAcc ∧ i ≠ .dec) (s : State) :
    exec i s = .next (unknownOpcode (encode i) s) := by
  obtain ⟨hhalt, hpush, hpop, hdec⟩ := hi
  cases i with
  | halt | incPush | popAcc | dec => contradiction
  | unknown04 op | unknown08 op | unknown10 op | unknown20 op | unknown40 op | unknown80 op => rfl

/-- By the ways an instruction ends, each decided by sp: from a state with another trace it ends in the same way. -/
theorem exec_withDiag {i : Instr} {s s' : State} (d : List DiagEvent) (h : exec i s = .next s') :
    ∃ t', exec i (s.withDiag d) = .next t' ∧ SameButDiag s' t' := by
  obtain ⟨rfl, rfl⟩ | ⟨rfl, hsp, rfl⟩ | ⟨rfl, hne, hle, rfl⟩ | ⟨rfl, hge, rfl⟩ | ⟨rfl, hlt, rfl⟩ | ⟨rfl, rfl⟩ |
    ⟨hi, rfl⟩ := exec_cases h
  · exact ⟨_, exec_halt _, rfl, rfl, rfl, rfl, rfl⟩
  · exact ⟨_, exec_incPush_full (s := s.withDiag d) hsp, rfl, rfl, rfl, rfl, rfl⟩
  · exact ⟨_, exec_incPush_inside (s := s.withDiag d) hne hle, rfl, rfl, rfl, rfl, rfl⟩
  · exact ⟨_, exec_popAcc_empty (s := s.withDiag d) hge, rfl, rfl, rfl, rfl, rfl⟩
  · exact ⟨_, exec_popAcc_nonempty (s := s.withDiag d) hlt, rfl, rfl, rfl, rfl, rfl⟩
  · exact ⟨_, exec_dec _, rfl, rfl, rfl, rfl, rfl⟩
  · exact ⟨_, exec_of_unknown hi _, rfl, rfl, rfl, rfl, rfl⟩

theorem step_sameButDiag {s t s' : State} (hst : SameButDiag s t) (h : step s = .next s') :
    ∃ t', step t = .next t' ∧ SameButDiag s' t' := by
  rw [eq_withDiag_of_sameButDiag hst]
  generalize t.diag = d
  rcases step_cases h with ⟨hstopped, rfl⟩ | ⟨hrun, hpc, rfl⟩ | ⟨hrun, hpc, hexec⟩
  · exact ⟨_, step_not_running (s := s'.withDiag d) hstopped, sameButDiag_withDiag d s'⟩
  · exact ⟨_, (step_running (s := s.withDiag d) hrun).trans (coreStep_outside hpc), rfl, rfl, rfl, rfl, rfl⟩
  · obtain ⟨t', ht', hsame⟩ := exec_withDiag d hexec
    exact ⟨t', (step_of_byteAt_pc (s := s.withDiag d) hrun hpc rfl).trans ht', hsame⟩

theorem runLoop_sameButDiag {n : Nat} {s t s' : State} (hst : SameButDiag s t) (h : runLoop n s = .next s') :
    ∃ t', runLoop n t = .next t' ∧ SameButDiag s' t' := by
  induction n generalizing s t with
  | zero =>
    obtain rfl : s = s' := by simpa only [runLoop, Host.Outcome.next.injEq] using h
    exact ⟨t, rfl, hst⟩
  | succ n ih =>
    obtain ⟨u, hstep, hloop⟩ := runLoop_succ_iff.1 h
    obtain ⟨v, hstep', huv⟩ := step_sameButDiag hst hstep
    obtain ⟨t', hloop', hsame⟩ := ih huv hloop
    exact ⟨t', runLoop_succ_iff.2 ⟨v, hstep', hloop'⟩, hsame⟩

theorem hostRun_sameButDiag {s t s' : State} {r : HostResponse} (hst : SameButDiag s t)
    (h : hostRun s = .next (r, s')) : ∃ t', hostRun t = .next (r, t') ∧ SameButDiag s' t' := by
  obtain ⟨hloop, rfl⟩ := hostRun_eq_next_iff.1 h
  rw [eq_withDiag_of_sameButDiag hst]
  obtain ⟨t', hloop', hsame⟩ :=
    runLoop_sameButDiag (s := startRun s) (t := startRun (s.withDiag t.diag)) ⟨rfl, rfl, rfl, rfl, rfl⟩ hloop
  refine ⟨t', hostRun_eq_next_iff.2 ⟨hloop', ?_⟩, hsame⟩
  rw [eq_withDiag_of_sameButDiag hsame]
  rfl

/-- The same ending of an operation, with the state it leaves replaced. -/
def Result.mapState {α : Type} (f : State → State) : Result α → Result α
  | .ok v s => .ok v (f s)
  | .raised e s => .raised e (f s)
  | .stopped x => .stopped x

theorem push_withDiag (v : Byte) (d : List DiagEvent) (s : State) :
    push v (s.withDiag d) = (push v s).mapState (State.withDiag d) := by
  rcases push_cases v s with ⟨h0, e⟩ | ⟨h0, h1, e⟩ | ⟨h1, e⟩ <;> rw [e]
  · exact push_full h0
  · exact push_inside h0 h1
  · exact push_outside h1

theorem pop_withDiag (d : List DiagEvent) (s : State) : pop (s.withDiag d) = (pop s).mapState (State.withDiag d) := by
  rcases pop_cases s with ⟨h, e⟩ | ⟨h, e⟩ <;> rw [e]
  · exact pop_empty h
  · exact pop_nonempty h

theorem peek_withDiag (d : List DiagEvent) (s : State) :
    peek (s.withDiag d) = (peek s).mapState (State.withDiag d) := by
  rcases Nat.lt_or_ge s.sp.toNat 255 with h | h
  · rw [peek_nonempty h]
    exact peek_nonempty h
  · rw [peek_empty h]
    exact peek_empty h

theorem poke_withDiag (v : Byte) (d : List DiagEvent) (s : State) :
    poke v (s.withDiag d) = (poke v s).mapState (State.withDiag d) := by
  rcases Nat.lt_or_ge s.sp.toNat 255 with h | h
  · rw [poke_nonempty h]
    exact poke_nonempty h
  · rw [poke_empty h]
    exact poke_empty h

theorem respondStack_withDiag {α : Type} {answer : α → HostResponse} {x y : Result α} {d : List DiagEvent}
    {r : HostResponse} {s' : State} (hxy : y = x.mapState (State.withDiag d))
    (h : respondStack answer x = .next (r, s')) :
    ∃ t', respondStack answer y = .next (r, t') ∧ SameButDiag s' t' := by
  subst hxy
  cases x with
  | ok v u | raised e u =>
    cases h
    exact ⟨_, rfl, sameButDiag_withDiag d _⟩
  | stopped f => cases h

theorem hostEffect_withDiag {c : HostCommand} {s s' : State} {r : HostResponse} (d : List DiagEvent)
    (h : hostEffect c s = .next (r, s')) : ∃ t', hostEffect c (s.withDiag d) = .next (r, t') ∧ SameButDiag s' t' := by
  cases c with
  | run => exact hostRun_sameButDiag (sameButDiag_withDiag d s) h
  | push v => exact respondStack_withDiag (push_withDiag v d s) h
  | pop => exact respondStack_withDiag (pop_withDiag d s) h
  | peek => exact respondStack_withDiag (peek_withDiag d s) h
  | poke v => exact respondStack_withDiag (poke_withDiag v d s) h
  | new | reset | readRegs | memWrite a v | memRead a =>
    cases h
    exact ⟨_, rfl, rfl, rfl, rfl, rfl, rfl⟩

/-- Settles O46: no guard, value or address an instruction or a command uses comes from the trace, and RUN follows by
induction on the turns of its loop; acceptance reads STATUS alone. -/
theorem diagnosticsInfluenceNothing : Obligations.DiagnosticsInfluenceNothing := by
  refine ⟨fun s t s' => step_sameButDiag, fun c r s t s' hst h => ?_⟩
  rw [eq_withDiag_of_sameButDiag hst]
  by_cases hc : hostAccepts c s = true
  · rw [hostCommand_accepted hc] at h
    rw [hostCommand_accepted (s := s.withDiag t.diag) hc]
    exact hostEffect_withDiag t.diag h
  · simp [hostCommand, hc] at h

end Sys2Proof.Machine
end

section
/-! PROOFS. Exceptions (60_exceptions): what taking an error writes (R96), the one condition on which a step takes each
of the errors (R92 to R95, R99), and the core that has stopped (R107). -/

namespace Sys2Proof.Machine

open Sys2Proof

/-! ### Taking an error (R91, R96) -/

theorem code_injective : Function.Injective ErrorKind.code := by
  intro e e'
  cases e <;> cases e' <;> decide

/-- A run fails with one error only (R90, R91). -/
theorem runFailed_unique {e e' : ErrorKind} {t : State} (h : RunFailed e t) (h' : RunFailed e' t) : e = e' := by
  obtain ⟨-, hcause⟩ := h
  obtain ⟨-, hcause'⟩ := h'
  exact code_injective (hcause.symm.trans hcause')

/-- Settles O30: taking an error writes STATUS from FAULTED and the code, and no other field. -/
theorem takingAnErrorWritesOnlyStatus : Obligations.TakingAnErrorWritesOnlyStatus := fun e s =>
  ⟨runFailed_takeError e s, statusWord_reserved _ _, rfl, rfl, rfl, rfl, rfl⟩

/-! ### A fetch past the array (R95) -/

theorem step_past_end {s : State} (hrun : s.runState = .running) (hpc : 256 ≤ s.pc.toNat) :
    step s = .next (takeError .outOfBoundsFetch s) :=
  (step_running hrun).trans (coreStep_outside hpc)

/-- Settles O28: the failing fetch changes nothing, so the step takes the error in its own state (O30). -/
theorem stepPastTheEndTakesError : Obligations.StepPastTheEndTakesError := by
  intro s hrun hpc
  obtain ⟨hfailed, -, hframe⟩ := takingAnErrorWritesOnlyStatus .outOfBoundsFetch s
  exact ⟨_, step_past_end hrun hpc, hfailed, hframe⟩

/-! ### A stopped core (R107) -/

/-- Settles O29: the run loop does not turn, and the iterated step is the run loop (O44). -/
theorem stoppedCoreKeepsItsState : Obligations.StoppedCoreKeepsItsState := by
  intro n s hstopped
  have hloop : runLoop n s = .next s := runLoop_not_running n hstopped
  exact ⟨hloop, (runLoopIsTheIteratedStep n s).symm.trans hloop⟩

/-! ### The condition of each error (R92 to R95, R99) -/

/-- The condition, read from the state a step starts in, on which the step raises the error: the fetch guard for
OutOfBoundsFetch, the guard of the opcode at pc for the two stack errors, and none for InvalidStackAccess, which peek
and poke alone raise (R94). -/
def StepRaises (s : State) : ErrorKind → Prop
  | .stackOverflow => s.pc.toNat < 256 ∧ s.byteAt s.pc.toNat = 0x01#8 ∧ s.sp = 0#16
  | .stackUnderflow => s.pc.toNat < 256 ∧ s.byteAt s.pc.toNat = 0x02#8 ∧ 0x00FF ≤ s.sp.toNat
  | .invalidStackAccess => False
  | .outOfBoundsFetch => 256 ≤ s.pc.toNat

theorem step_takes_error_of_stepRaises {s : State} {e : ErrorKind} (hrun : s.runState = .running)
    (h : StepRaises s e) : ∃ u, step s = .next (takeError e u) := by
  cases e with
  | stackOverflow =>
    obtain ⟨hpc, hbyte, hsp⟩ := h
    exact ⟨_, (step_of_byteAt_pc hrun hpc hbyte).trans (exec_incPush_full hsp)⟩
  | stackUnderflow =>
    obtain ⟨hpc, hbyte, hsp⟩ := h
    exact ⟨_, (step_of_byteAt_pc hrun hpc hbyte).trans (exec_popAcc_empty hsp)⟩
  | invalidStackAccess => exact h.elim
  | outOfBoundsFetch => exact ⟨s, step_past_end hrun h⟩

/-- Of the ways a step of a RUNNING core ends, HALT ends HALTED, three take an error, and the others stay RUNNING. -/
theorem stepRaises_of_step_faulted {s t : State} (hrun : s.runState = .running) (h : step s = .next t)
    (hfaulted : t.runState = .faulted) : ∃ e, RunFailed e t ∧ StepRaises s e := by
  rcases step_cases h with ⟨hstopped, -⟩ | ⟨-, hpc, rfl⟩ | ⟨-, hpc, hexec⟩
  · exact absurd hrun hstopped
  · exact ⟨.outOfBoundsFetch, runFailed_takeError _ _, hpc⟩
  · obtain ⟨-, rfl⟩ | ⟨hi, hsp, rfl⟩ | ⟨-, -, -, rfl⟩ | ⟨hi, hsp, rfl⟩ | ⟨-, -, rfl⟩ | ⟨-, rfl⟩ | ⟨-, rfl⟩ :=
      exec_cases hexec
    · cases (runState_setStatus _ _ _).symm.trans hfaulted
    · exact ⟨.stackOverflow, runFailed_takeError _ _, hpc, eq_encode_of_decode hi, hsp⟩
    · cases hrun.symm.trans hfaulted
    · exact ⟨.stackUnderflow, runFailed_takeError _ _, hpc, eq_encode_of_decode hi, hsp⟩
    all_goals cases hrun.symm.trans hfaulted

theorem runFailed_step_iff {s t : State} (e : ErrorKind) (hrun : s.runState = .running) (h : step s = .next t) :
    RunFailed e t ↔ StepRaises s e := by
  constructor
  · intro hfailed
    obtain ⟨e', hfailed', hraises⟩ := stepRaises_of_step_faulted hrun h hfailed.1
    obtain rfl : e = e' := runFailed_unique hfailed hfailed'
    exact hraises
  · intro hraises
    obtain ⟨u, hu⟩ := step_takes_error_of_stepRaises hrun hraises
    obtain rfl : takeError e u = t := by simpa only [hu, Host.Outcome.next.injEq] using h
    exact runFailed_takeError e u

/-- Settles O34: `runFailed_step_iff` at each of the four errors; no step meets the condition of the last. -/
theorem stepErrorsExactlyOnTheirConditions : Obligations.StepErrorsExactlyOnTheirConditions := fun _ _ hrun h =>
  ⟨runFailed_step_iff .outOfBoundsFetch hrun h, runFailed_step_iff .stackOverflow hrun h,
    runFailed_step_iff .stackUnderflow hrun h, (runFailed_step_iff .invalidStackAccess hrun h).1⟩

end Sys2Proof.Machine
end

section
/-! PROOFS. Reset (70_reset_and_hazards): the values the registers and STATUS hold right after power-on or reset (R109,
R112). -/

namespace Sys2Proof.Machine

open Sys2Proof

/-- The machine after power-on holds the values a reset writes, so that a reset then changes nothing (R109, R110). -/
theorem resetRegs_reset : resetRegs State.reset = State.reset := rfl

theorem statusOut_resetRegs (s : State) : (resetRegs s).statusOut = 0x00#8 :=
  statusOut_setStatus _ .idle causeNone

/-- Settles O36: the reset state is what a reset leaves. -/
theorem resetStateHoldsResetValues : Obligations.ResetStateHoldsResetValues := by
  rw [Obligations.ResetStateHoldsResetValues, ← resetRegs_reset]
  exact ⟨rfl, rfl, rfl, runState_resetRegs _, cause_resetRegs _, statusOut_resetRegs _⟩

end Sys2Proof.Machine
end
